-- ==== Sys2Proof/Word.lean ====
section
/-! DEFINITION. The machine has two kinds of number and no bit vectors: a memory cell, `rb`, an input and an output
hold a signed integer, Lean's `Int` (spec 20_memory.md R50, 41_arithmetic.md R142); an address is a non-negative
integer that counts cells, Lean's `Nat` (R51). Sums and products are exact (R143). The spec refers to no bit of a cell
(00_scope.md R10); a finite `CELL_BITS` is a range of integers, given here. -/

namespace Sys2Proof

/-- The least value of a cell of `n` bits (41_arithmetic.md R144). -/
def cellMin (n : Nat) : Int := -(2 ^ (n - 1))

/-- The greatest value of a cell of `n` bits (R144). -/
def cellMax (n : Nat) : Int := 2 ^ (n - 1) - 1

end Sys2Proof
end

