-- ==== Sys2Proof/Syntax.lean ====
section
/-! DEFINITION. The instructions as the decoder reads them from an instruction word: one constructor per row of
spec/opcode_table.json, with the mode of each parameter the instruction has (30_encoding.md R80 to R84). A parameter's
cell is not part of the word: the instruction fetches it from `pc + k` when it resolves parameter `k`
(40_dispatch_and_parameters.md R112, R118). -/

namespace Sys2Proof

/-- The mode of one parameter, from its decimal digit (R83). -/
inductive Mode where
  /-- Digit 0: the parameter cell holds the operand's address. -/
  | position
  /-- Digit 1: the parameter cell is the operand. -/
  | immediate
  /-- Digit 2: the parameter cell is an offset from the relative base. -/
  | relative
  /-- Digits 3 to 9, for which the spec defines no mode (R90); `excess` is the digit less 3. -/
  | undefined (excess : Fin 7)
  deriving DecidableEq, Repr

/-- The ten instructions of R84. -/
inductive Instr where
  /-- ADD, opcode 1 (R140). -/
  | add (a b dst : Mode)
  /-- MUL, opcode 2 (R141). -/
  | mul (a b dst : Mode)
  /-- IN, opcode 3 (R150). -/
  | inp (dst : Mode)
  /-- OUT, opcode 4 (R151). -/
  | out (a : Mode)
  /-- JNZ, opcode 5 (R160). -/
  | jnz (a target : Mode)
  /-- JZ, opcode 6 (R161). -/
  | jz (a target : Mode)
  /-- LT, opcode 7 (R170). -/
  | lt (a b dst : Mode)
  /-- EQ, opcode 8 (R171). -/
  | eq (a b dst : Mode)
  /-- ARB, opcode 9 (R180). -/
  | arb (a : Mode)
  /-- HALT, opcode 99 (R185). -/
  | halt
  deriving DecidableEq, Repr

end Sys2Proof
end

