-- ==== Sys2Proof/WellFormed.lean ====
section
/-! DEFINITION. The modes a well-formed program uses (30_encoding.md R81, R85; 70_reset_and_hazards.md R280 items 1
and 2). The machine gives every instruction a meaning, well-formed or not: an ill-formed one takes a model fault. -/

namespace Sys2Proof

/-- A source parameter's legal modes: 0, 1, 2 (R81). -/
def Mode.legalSource : Mode → Bool
  | .position => true
  | .immediate => true
  | .relative => true
  | .undefined _ => false

/-- A destination parameter's legal modes: 0, 2 (R81). -/
def Mode.legalDest : Mode → Bool
  | .position => true
  | .immediate => false
  | .relative => true
  | .undefined _ => false

/-- Every parameter the instruction has carries a legal mode (the table of R85). -/
def Instr.wellFormed : Instr → Bool
  | .add a b dst => a.legalSource && b.legalSource && dst.legalDest
  | .mul a b dst => a.legalSource && b.legalSource && dst.legalDest
  | .inp dst => dst.legalDest
  | .out a => a.legalSource
  | .jnz a target => a.legalSource && target.legalSource
  | .jz a target => a.legalSource && target.legalSource
  | .lt a b dst => a.legalSource && b.legalSource && dst.legalDest
  | .eq a b dst => a.legalSource && b.legalSource && dst.legalDest
  | .arb a => a.legalSource
  | .halt => true

end Sys2Proof
end

