-- ==== Sys2Proof/Decode.lean ====
section
/-! DEFINITION. Decoding an instruction word by its decimal digits, total on every signed integer and rejecting by
name, and after it the encoder (30_encoding.md R80 to R92; 46_halt_and_invalid.md R187, R188). -/

namespace Sys2Proof

/-- `opcode(w)`: the last two decimal digits (R80). -/
def opcodeOf (w : Nat) : Nat := w % 100

/-- `mode(w, k) = (w div 10^(k+1)) mod 10`, for `k` = 1, 2, 3 (R80, R116). -/
def modeDigit (w k : Nat) : Nat := w / 10 ^ (k + 1) % 10

/-- The mode of a decimal digit (R83). Digits run from 0 to 9. -/
def Mode.ofDigit : Nat → Mode
  | 0 => .position
  | 1 => .immediate
  | 2 => .relative
  | d + 3 => .undefined (Fin.ofNat 7 d)

/-- The mode of parameter `k` in the word `w` (R116). -/
def modeOf (w k : Nat) : Mode := Mode.ofDigit (modeDigit w k)

/-- Why a word is no instruction. Both are the architectural failure `InvalidOpcode`. -/
inductive DecodeFailure where
  /-- The word is negative (R188). -/
  | negativeWord (w : Int)
  /-- The word's last two digits are 0 or 10 to 98 (R89, R187). -/
  | undefinedOpcode (w : Int)
  deriving DecidableEq, Repr

/-- The instruction of a non-negative word by its opcode, `none` for an opcode the table calls "other" (R84). Only
the opcode and the digits of the parameters the instruction has are examined (R91). -/
def instrOf (w : Nat) : Option Instr :=
  match opcodeOf w with
  | 1 => some (.add (modeOf w 1) (modeOf w 2) (modeOf w 3))
  | 2 => some (.mul (modeOf w 1) (modeOf w 2) (modeOf w 3))
  | 3 => some (.inp (modeOf w 1))
  | 4 => some (.out (modeOf w 1))
  | 5 => some (.jnz (modeOf w 1) (modeOf w 2))
  | 6 => some (.jz (modeOf w 1) (modeOf w 2))
  | 7 => some (.lt (modeOf w 1) (modeOf w 2) (modeOf w 3))
  | 8 => some (.eq (modeOf w 1) (modeOf w 2) (modeOf w 3))
  | 9 => some (.arb (modeOf w 1))
  | 99 => some .halt
  | _ => none

/-- Decode an instruction word: the sign is tested before the opcode (R111, R188), the opcode before any mode
digit (R92). -/
def decode (w : Int) : Except DecodeFailure Instr :=
  if w < 0 then .error (.negativeWord w)
  else
    match instrOf w.toNat with
    | some i => .ok i
    | none => .error (.undefinedOpcode w)

/-- The decimal digit of a mode (R83). -/
def Mode.digit : Mode → Nat
  | .position => 0
  | .immediate => 1
  | .relative => 2
  | .undefined e => e.val + 3

/-- The opcode value of an instruction (R84). -/
def Instr.opcode : Instr → Nat
  | .add _ _ _ => 1
  | .mul _ _ _ => 2
  | .inp _ => 3
  | .out _ => 4
  | .jnz _ _ => 5
  | .jz _ _ => 6
  | .lt _ _ _ => 7
  | .eq _ _ _ => 8
  | .arb _ => 9
  | .halt => 99

/-- The instruction's length in cells: 1 and one per parameter (R82). -/
def Instr.cells : Instr → Nat
  | .add _ _ _ => 4
  | .mul _ _ _ => 4
  | .inp _ => 2
  | .out _ => 2
  | .jnz _ _ => 3
  | .jz _ _ => 3
  | .lt _ _ _ => 4
  | .eq _ _ _ => 4
  | .arb _ => 2
  | .halt => 1

/-- `w = op + 100*A + 1000*B + 10000*C` (R85). -/
def wordOf (op : Nat) (a b c : Nat) : Nat := op + 100 * a + 1000 * b + 10000 * c

/-- The instruction word of an instruction: its opcode and its modes, every other digit 0 (R85). -/
def encode : Instr → Nat
  | .add a b dst => wordOf 1 a.digit b.digit dst.digit
  | .mul a b dst => wordOf 2 a.digit b.digit dst.digit
  | .inp dst => wordOf 3 dst.digit 0 0
  | .out a => wordOf 4 a.digit 0 0
  | .jnz a target => wordOf 5 a.digit target.digit 0
  | .jz a target => wordOf 6 a.digit target.digit 0
  | .lt a b dst => wordOf 7 a.digit b.digit dst.digit
  | .eq a b dst => wordOf 8 a.digit b.digit dst.digit
  | .arb a => wordOf 9 a.digit 0 0
  | .halt => wordOf 99 0 0 0

/-- The instruction this decoder reads from the word whose bits, numbered as the opcode table numbers them, are `w`.
The first word is one cell, whose value is the number `w` itself: a cell has no width that could cut it, and the
operand cells that follow play no part in decoding (log entry 17). -/
def decodeTableWord (_nbits w : Nat) : Option Instr :=
  match decode (Int.ofNat w) with
  | .ok i => some i
  | .error _ => none

end Sys2Proof
end

