-- ==== Sys2Proof/Config.lean ====
section
/-! DEFINITION. What an implementation fixes: the two open parameters of 00_scope.md R9 (a record that the state
carries unchanged, log entry 3) and the free value of the hidden capacity's growth (20_memory.md R56, log entry 4). -/

namespace Sys2Proof

/-- The open parameters of 00_scope.md R9. `none` is the reference value, unbounded. -/
structure Params where
  /-- `CELL_BITS`: the width of a cell as a two's-complement signed integer. -/
  cellBits : Option Nat
  /-- `ADDR_MAX`: the largest address the Memory can hold. -/
  addrMax : Option Nat
  deriving DecidableEq, Repr

/-- The reference values of R9: both unbounded. -/
def Params.reference : Params := { cellBits := none, addrMax := none }

/-- A finite `CELL_BITS` is at least 2 (the summary table of 92_eei_decisions.md: "any finite n >= 2"). -/
def Params.wf (p : Params) : Bool :=
  match p.cellBits with
  | none => true
  | some n => decide (2 ≤ n)

/-- FREE VALUE (20_memory.md R56, log entry 4): how many cells beyond the referenced one the Memory grows by, for an
old capacity and the referenced address. It has no body, so nothing can be proved of its value. -/
opaque Config.growExtra : Nat → Nat → Nat

end Sys2Proof
end

