-- ==== Sys2Proof/Machine/State.lean ====
section
/-! DEFINITION. The state of one engine (10_state.md R20), its input queue, the open parameters and the host's coming
moves, as plain data; the reasons a step can stop; the state after reset (10_state.md R36). -/

namespace Sys2Proof.Machine

/-- The execution state `st` (10_state.md R25, R26). -/
inductive ExecState where
  /-- From construction to the first invocation (R26). -/
  | idle
  /-- An invocation is in progress. -/
  | running
  /-- An input instruction found the queue empty; resumable. -/
  | suspendedOnInput
  /-- HALT was executed; terminal. -/
  | halted
  /-- An invalid opcode was met; terminal. -/
  | failed
  deriving DecidableEq, Repr

/-- The status `run` returns (10_state.md R28). -/
inductive Status where
  | ok
  | needsInput
  | invalidOpcode
  deriving DecidableEq, Repr

/-- What the host does to the machine between invocations (48_run_protocol.md R200, R217; log entry 5). -/
inductive HostMove where
  /-- Construct an engine from a program: the reset (R201, R222). -/
  | new (program : List Int)
  /-- The host makes its input queue hold exactly these values (R213; log entry 24). -/
  | queue (values : List Int)
  /-- Invoke `run` with the host's queue, passed by reference (R203). -/
  | run
  deriving DecidableEq, Repr

/-- The Memory's cells: address and value, addresses strictly rising, no value 0; an unlisted address reads 0
(20_memory.md R54; log entry 1). -/
abbrev Memory := List (Nat × Int)

/-- Everything the machine holds. -/
structure State where
  /-- The open parameters (00_scope.md R9); no step changes them (log entry 3). -/
  params : Params
  /-- The Memory `M` (R29). -/
  mem : Memory
  /-- The hidden capacity `cap` (R30). -/
  cap : Nat
  /-- The instruction pointer `pc` (R22). -/
  pc : Nat
  /-- The relative base `rb` (R24). -/
  rb : Int
  /-- The execution state `st` (R25, R26). -/
  st : ExecState
  /-- The output sequence `out` of the current or last invocation (R32). -/
  out : List Int
  /-- The host's input queue `inq`, front first (R31). -/
  inq : List Int
  /-- The moves the host has yet to make, first one first (log entry 5). -/
  host : List HostMove
  deriving DecidableEq, Repr

/-- The model faults (60_exceptions.md R231, R233): situations the source gives no meaning. Each stops the machine
where the real one may go on, so each is safe. -/
inductive Fault where
  /-- Raised by the Parameter Decoder: mode digit 3 to 9 on parameter `k` of the word `w` (R117). Safe. -/
  | invalidMode (w : Int) (k : Nat)
  /-- Raised by the Parameter Decoder: mode digit 1 on the destination parameter `k` of the word `w` (R120). Safe. -/
  | immediateWriteTarget (w : Int) (k : Nat)
  /-- Raised by a memory reference or the resolution of a destination: the address `a` is below 0 (R58). Safe. -/
  | negativeAddress (a : Int)
  /-- Raised by JNZ and JZ: a taken jump to `t` below 0 (R163). Safe. -/
  | negativeJumpTarget (t : Int)
  /-- Raised by ADD, MUL, ARB with a finite `CELL_BITS`: the exact result `r` is not representable (R144). Safe. -/
  | overflow (r : Int)
  /-- Raised by a memory reference or the resolution of a destination with a finite `ADDR_MAX`: the address `a` is
  above it (R57). Safe. -/
  | memoryExhausted (a : Int)
  deriving DecidableEq, Repr

/-- What the model refuses. Apart from the first, each is a request of the host that 93_implementation_defined.md
treats as refused; no instruction raises one. -/
inductive Refusal where
  /-- Raised by the dispatcher for an instruction without a meaning; none is left in this model. Safe. -/
  | notModelled (mnemonic : String)
  /-- Raised by `new` with a finite `CELL_BITS`: the program holds the unrepresentable value `v` (48 R218). Safe. -/
  | unrepresentableProgramCell (v : Int)
  /-- Raised by `new` with a finite `ADDR_MAX`: the program of `length` cells does not fit (log entry 11). Safe. -/
  | programTooLong (length : Nat)
  /-- Raised by the host's filling of its queue and by `run` with a finite `CELL_BITS`: the unrepresentable input `v`
  (48 R218). Safe. -/
  | unrepresentableInput (v : Int)
  /-- Raised by `peek` of a negative address `a` (48 R212). Safe. -/
  | peekNegative (a : Int)
  /-- Raised by `peek` while the engine is running (48 R212). Safe. -/
  | peekWhileRunning
  /-- Raised by `run` of an engine that is running: the host has no such move (48 R223). Safe. -/
  | runWhileRunning
  /-- Raised by a sampling of the ports: a valid data word that is not of the port's width (48 R220, log entry 28).
  Safe. -/
  | portWordWidth
  deriving DecidableEq, Repr

/-- The machine right after reset: the engine `new []` builds with the reference parameters (10_state.md R36,
48_run_protocol.md R201), an empty input queue (log entry 9) and no host move to come (log entry 5). -/
def State.reset : State :=
  { params := Params.reference
    mem := []
    cap := 0
    pc := 0
    rb := 0
    st := .idle
    out := []
    inq := []
    host := [] }

end Sys2Proof.Machine
end

