-- ==== Sys2Proof/Machine/Ops.lean ====
section
/-! DEFINITION. The named operations over memory and registers (20_memory.md R53 to R58), the representability check
(41_arithmetic.md R144), and the architectural exception `InvalidOpcode` (60_exceptions.md R230). -/

namespace Sys2Proof.Machine

/-! ### The list of cells -/

/-- The value of the cell at `a`: 0 where nothing is listed (R54). -/
def Memory.get : Memory → Nat → Int
  | [], _ => 0
  | (b, v) :: rest, a => if a = b then v else Memory.get rest a

/-- Put `v` at `a` in front of cells that all lie above `a`; a 0 is not listed. -/
def Memory.push (a : Nat) (v : Int) (rest : Memory) : Memory :=
  if v = 0 then rest else (a, v) :: rest

/-- The cells with `v` at `a`, every other cell as before (R55), in canonical form. -/
def Memory.set : Memory → Nat → Int → Memory
  | [], a, v => Memory.push a v []
  | (b, u) :: rest, a, v =>
    if a < b then Memory.push a v ((b, u) :: rest)
    else if a = b then Memory.push a v rest
    else (b, u) :: Memory.set rest a v

/-- Canonical form from the address `low` up: addresses at least `low` and strictly rising, no value 0. -/
def Memory.wfFrom : Nat → Memory → Bool
  | _, [] => true
  | low, (a, v) :: rest => decide (low ≤ a) && decide (v ≠ 0) && Memory.wfFrom (a + 1) rest

/-- The canonical form of memory (log entry 1). -/
def Memory.wf (m : Memory) : Bool := Memory.wfFrom 0 m

/-- The program's cells from the address `base` up, 0 elsewhere (10_state.md R36). -/
def Memory.load : Nat → List Int → Memory
  | _, [] => []
  | base, v :: rest => Memory.push base v (Memory.load (base + 1) rest)

/-! ### Updates of the state, one field each -/

def State.withMem (s : State) (m : Memory) : State := { s with mem := m }

def State.withCap (s : State) (c : Nat) : State := { s with cap := c }

def State.withPc (s : State) (a : Nat) : State := { s with pc := a }

def State.withRb (s : State) (v : Int) : State := { s with rb := v }

def State.withSt (s : State) (e : ExecState) : State := { s with st := e }

def State.withOut (s : State) (vs : List Int) : State := { s with out := vs }

def State.withInq (s : State) (vs : List Int) : State := { s with inq := vs }

def State.withHost (s : State) (ms : List HostMove) : State := { s with host := ms }

/-- The value of the cell at `a`. -/
def State.cell (s : State) (a : Nat) : Int := s.mem.get a

/-- The instruction word `w = M[pc]` (R80). -/
def State.word (s : State) : Int := s.cell s.pc

/-- `push(out, v)` (00_scope.md R14). -/
def State.push (s : State) (v : Int) : State := s.withOut (s.out ++ [v])

/-- The advance of `pc` past an instruction of `n` cells; the sum does not wrap (R114). -/
def State.advance (s : State) (n : Nat) : State := s.withPc (s.pc + n)

/-! ### Growth, reads and writes -/

/-- `GROW(cap, a)`: at least `a + 1`, at most `ADDR_MAX + 1`, the amount beyond that left open (R56, log entry 4). -/
def grow (p : Params) (cap : Nat) (a : Nat) : Nat :=
  match p.addrMax with
  | none => a + 1 + Config.growExtra cap a
  | some m => min (a + 1 + Config.growExtra cap a) (m + 1)

/-- The capacity after a reference to `a` (R53): it moves only for an address at or above it. -/
def capAfter (p : Params) (cap : Nat) (a : Nat) : Nat :=
  if cap ≤ a then grow p cap a else cap

/-- A reference to `a` makes `a` resolvable; only the hidden capacity can move (R53, R69). -/
def State.touch (s : State) (a : Nat) : State := s.withCap (capAfter s.params s.cap a)

/-- Does `a` lie above a finite `ADDR_MAX`? (R57) -/
def aboveMax (p : Params) (a : Int) : Bool :=
  match p.addrMax with
  | none => false
  | some m => decide ((m : Int) < a)

/-- The model fault a reference to `a` raises, if any: below 0 first (R58), then above `ADDR_MAX` (R57). -/
def addressFault (p : Params) (a : Int) : Option Fault :=
  if a < 0 then some (.negativeAddress a)
  else if aboveMax p a then some (.memoryExhausted a)
  else none

/-- `MemRead(a, 1)` (R54). -/
def memRead (a : Int) (s : State) : Except Fault (Int × State) :=
  match addressFault s.params a with
  | some f => .error f
  | none => .ok (s.cell a.toNat, s.touch a.toNat)

/-- `MemWrite(a, 1, v)` (R55). The caller sees to a representable `v` (log entry 2). -/
def memWrite (a : Int) (v : Int) (s : State) : Except Fault State :=
  match addressFault s.params a with
  | some f => .error f
  | none => .ok ((s.touch a.toNat).withMem (s.mem.set a.toNat v))

/-! ### Representability -/

/-- Is `r` representable in `CELL_BITS`? (R144) -/
def fits (p : Params) (r : Int) : Bool :=
  match p.cellBits with
  | none => true
  | some n => decide (cellMin n ≤ r) && decide (r ≤ cellMax n)

/-- `check(r)`: the exact result, or `Overflow(r)` (R144). Nothing wraps. -/
def check (p : Params) (r : Int) : Except Fault Int :=
  if fits p r then .ok r else .error (.overflow r)

/-! ### How an instruction ends -/

/-- An instruction's outcome: its next state, or the model fault it raised with none of its effect (R233). -/
def finish : Except Fault State → Host.Outcome State Fault Refusal
  | .ok s => .next s
  | .error f => .fault f

/-- Taking the architectural exception `InvalidOpcode`: `st <- Failed`, and `pc`, `rb`, `M`, `out` and `inq` stay
(60_exceptions.md R230, R238). There is no return from it (R239). -/
def takeInvalidOpcode (s : State) : State := s.withSt .failed

end Sys2Proof.Machine
end

