-- ==== Sys2Proof/Machine/Operands.lean ====
section
/-! DEFINITION. The Parameter Decoder (40_dispatch_and_parameters.md R115 to R122): every operand form, and the
parameters of each instruction format resolved in index order (R112 step 2). Parameter `k` counts from 1. -/

namespace Sys2Proof.Machine

/-- `raw(k)`: the parameter cell at `pc + k`, an ordinary read (R118). -/
def raw (k : Nat) (s : State) : Except Fault (Int × State) := memRead ((s.pc : Int) + (k : Int)) s

/-- `ea`: the effective address that the parameter cell `p` gives, an exact sum; only position and relative mode
have one (R119). -/
def effectiveAddress (m : Mode) (p : Int) (rb : Int) : Option Int :=
  match m with
  | .position => some p
  | .immediate => none
  | .relative => some (rb + p)
  | .undefined _ => none

/-- `val(w, k)`: a source parameter's value (R121). -/
def val (k : Nat) (m : Mode) (s : State) : Except Fault (Int × State) :=
  match raw k s with
  | .error f => .error f
  | .ok (p, s1) =>
    match effectiveAddress m p s1.rb with
    | some e => memRead e s1
    | none =>
      match m with
      | .immediate => .ok (p, s1)
      | _ => .error (.invalidMode s.word k)

/-- `addr(w, k)`: a destination parameter's address, its range checked here (R120). -/
def addr (k : Nat) (m : Mode) (s : State) : Except Fault (Int × State) :=
  match raw k s with
  | .error f => .error f
  | .ok (p, s1) =>
    match effectiveAddress m p s1.rb with
    | some e =>
      match addressFault s1.params e with
      | some f => .error f
      | none => .ok (e, s1)
    | none =>
      match m with
      | .immediate => .error (.immediateWriteTarget s.word k)
      | _ => .error (.invalidMode s.word k)

/-- What resolving two sources gives: their values and the state, of which only `cap` can have moved. -/
structure Sources where
  a : Int
  b : Int
  state : State

/-- The two sources of a format F2 instruction, both resolved whether or not they are used (R112). -/
def twoSources (a b : Mode) (s : State) : Except Fault Sources :=
  match val 1 a s with
  | .error f => .error f
  | .ok (x, s1) =>
    match val 2 b s1 with
    | .error f => .error f
    | .ok (y, s2) => .ok { a := x, b := y, state := s2 }

/-- A format F3 instruction whose result is `f a b`: resolve the three parameters, compute the result, write it and
advance by 4 (R112, R114). `f` answers a fault where the result must not be written. -/
def storeResult (f : Params → Int → Int → Except Fault Int) (a b dst : Mode) (s : State) : Except Fault State :=
  match twoSources a b s with
  | .error e => .error e
  | .ok src =>
    match addr 3 dst src.state with
    | .error e => .error e
    | .ok (d, s3) =>
      match f s3.params src.a src.b with
      | .error e => .error e
      | .ok r =>
        match memWrite d r s3 with
        | .error e => .error e
        | .ok s4 => .ok (s4.advance 4)

/-- A format F2 instruction: resolve both parameters, then jump to the target where `taken` holds of the tested
value, and otherwise advance by 3 (R114, R160, R161). A taken jump to a negative target is a model fault (R163); a
target above `ADDR_MAX` faults at the next fetch, not here (R164). -/
def jumpWhen (taken : Int → Bool) (a target : Mode) (s : State) : Except Fault State :=
  match twoSources a target s with
  | .error e => .error e
  | .ok src =>
    if taken src.a then
      if src.b < 0 then .error (.negativeJumpTarget src.b)
      else .ok (src.state.withPc src.b.toNat)
    else .ok (src.state.advance 3)

end Sys2Proof.Machine
end

