-- ==== Sys2Proof/Machine/Arithmetic.lean ====
section
/-! DEFINITION. ADD and MUL (41_arithmetic.md R140 to R144). -/

namespace Sys2Proof.Machine

/-- ADD, opcode 1: `dst := a + b`, the exact signed sum (R140, R142). -/
def execAdd (a b dst : Mode) (s : State) : Host.Outcome State Fault Refusal :=
  finish (storeResult (fun p x y => check p (x + y)) a b dst s)

/-- MUL, opcode 2: `dst := a * b`, the exact signed product (R141, R142). -/
def execMul (a b dst : Mode) (s : State) : Host.Outcome State Fault Refusal :=
  finish (storeResult (fun p x y => check p (x * y)) a b dst s)

end Sys2Proof.Machine
end

