-- ==== Sys2Proof/Machine/Flags.lean ====
section
/-! DEFINITION. The machine has no flags, no condition codes and no predicates (10_state.md R27). What takes their
place: the truth value a comparison writes to a cell (44_compare.md R170, R171), the test a jump makes on a value
(43_jumps.md R160, R161), and the status as a function of the execution state (10_state.md R28). -/

namespace Sys2Proof.Machine

/-- Exactly 1 or 0 (R170, R171). -/
def truthValue (b : Bool) : Int := if b then 1 else 0

/-- LT's signed, strict comparison (R170). -/
def lessThan (a b : Int) : Int := truthValue (decide (a < b))

/-- EQ's equality of integers (R171). -/
def equalTo (a b : Int) : Int := truthValue (decide (a = b))

/-- JNZ's test: any nonzero value, negative included (R160). -/
def nonzero (a : Int) : Bool := decide (a ≠ 0)

/-- JZ's test (R161). -/
def isZero (a : Int) : Bool := decide (a = 0)

/-- The status an invocation that stopped in `st` returns; none where no invocation has returned (R28, R36). -/
def ExecState.status : ExecState → Option Status
  | .idle => none
  | .running => none
  | .suspendedOnInput => some .needsInput
  | .halted => some .ok
  | .failed => some .invalidOpcode

/-- The status numbers of a port-level binding (R28). -/
def Status.code : Status → Nat
  | .ok => 0
  | .needsInput => 1
  | .invalidOpcode => 2

end Sys2Proof.Machine
end

