-- ==== Sys2Proof/Machine/Compare.lean ====
section
/-! DEFINITION. LT and EQ (44_compare.md R170, R171). Their results 0 and 1 are not subject to `check`. -/

namespace Sys2Proof.Machine

/-- LT, opcode 7: `dst := 1 if a < b else 0` (R170). -/
def execLt (a b dst : Mode) (s : State) : Host.Outcome State Fault Refusal :=
  finish (storeResult (fun _ x y => .ok (lessThan x y)) a b dst s)

/-- EQ, opcode 8: `dst := 1 if a == b else 0` (R171). -/
def execEq (a b dst : Mode) (s : State) : Host.Outcome State Fault Refusal :=
  finish (storeResult (fun _ x y => .ok (equalTo x y)) a b dst s)

end Sys2Proof.Machine
end

