-- ==== Sys2Proof/Machine/Halt.lean ====
section
/-! DEFINITION. HALT (46_halt_and_invalid.md R185). -/

namespace Sys2Proof.Machine

/-- HALT, opcode 99: `st <- Halted`; `pc` stays at the HALT word and nothing else changes (R185). -/
def execHalt (s : State) : Host.Outcome State Fault Refusal := .next (s.withSt .halted)

end Sys2Proof.Machine
end

