-- ==== Sys2Proof/Machine/InputOutput.lean ====
section
/-! DEFINITION. IN and OUT (42_input_output.md R150, R151). -/

namespace Sys2Proof.Machine

/-- IN once its destination `d` is resolved: with an empty queue it suspends and nothing else changes; otherwise it
pops the front value, writes it to `d` and advances by 2 (R150). -/
def takeInput (d : Int) (s : State) : Except Fault State :=
  match s.inq with
  | [] => .ok (s.withSt .suspendedOnInput)
  | v :: rest =>
    match memWrite d v (s.withInq rest) with
    | .error f => .error f
    | .ok s2 => .ok (s2.advance 2)

/-- IN, opcode 3. The destination is resolved before the queue is looked at (R150). -/
def execIn (dst : Mode) (s : State) : Host.Outcome State Fault Refusal :=
  match addr 1 dst s with
  | .error f => .fault f
  | .ok (d, s1) => finish (takeInput d s1)

/-- OUT, opcode 4: `a` is appended to the output sequence; it never blocks (R151). -/
def execOut (a : Mode) (s : State) : Host.Outcome State Fault Refusal :=
  match val 1 a s with
  | .error f => .fault f
  | .ok (x, s1) => .next ((s1.push x).advance 2)

end Sys2Proof.Machine
end

