-- ==== Sys2Proof/Machine/Jumps.lean ====
section
/-! DEFINITION. JNZ and JZ (43_jumps.md R160 to R164). -/

namespace Sys2Proof.Machine

/-- JNZ, opcode 5: if `a != 0`, `pc := target`, else advance 3 (R160). -/
def execJnz (a target : Mode) (s : State) : Host.Outcome State Fault Refusal :=
  finish (jumpWhen nonzero a target s)

/-- JZ, opcode 6: if `a == 0`, `pc := target`, else advance 3 (R161). -/
def execJz (a target : Mode) (s : State) : Host.Outcome State Fault Refusal :=
  finish (jumpWhen isZero a target s)

end Sys2Proof.Machine
end

