-- ==== Sys2Proof/Machine/RelativeBase.lean ====
section
/-! DEFINITION. ARB (45_relative_base.md R180 to R182). -/

namespace Sys2Proof.Machine

/-- ARB, opcode 9: `rb := rb + a`, where `a` is read through the old `rb` (R180). A negative result is legal (R181). -/
def execArb (a : Mode) (s : State) : Host.Outcome State Fault Refusal :=
  match val 1 a s with
  | .error f => .fault f
  | .ok (x, s1) =>
    match check s1.params (s1.rb + x) with
    | .error f => .fault f
    | .ok r => .next ((s1.withRb r).advance 2)

end Sys2Proof.Machine
end

