-- ==== Sys2Proof/Machine/Dispatch.lean ====
section
/-! DEFINITION. The dispatch of 40_dispatch_and_parameters.md R113: one arm per instruction. -/

namespace Sys2Proof.Machine

/-- Execute an instruction whose word stands at `pc` (R113, R125). -/
def exec (i : Instr) (s : State) : Host.Outcome State Fault Refusal :=
  match i with
  | .add a b dst => Sys2Proof.Machine.execAdd a b dst s
  | .mul a b dst => Sys2Proof.Machine.execMul a b dst s
  | .inp dst => Sys2Proof.Machine.execIn dst s
  | .out a => Sys2Proof.Machine.execOut a s
  | .jnz a target => Sys2Proof.Machine.execJnz a target s
  | .jz a target => Sys2Proof.Machine.execJz a target s
  | .lt a b dst => Sys2Proof.Machine.execLt a b dst s
  | .eq a b dst => Sys2Proof.Machine.execEq a b dst s
  | .arb a => Sys2Proof.Machine.execArb a s
  | .halt => Sys2Proof.Machine.execHalt s

end Sys2Proof.Machine
end

