-- ==== Sys2Proof/Machine/Engine.lean ====
section
/-! DEFINITION. One step of a running engine: fetch, decode, execute (40_dispatch_and_parameters.md R111, R125). -/

namespace Sys2Proof.Machine

/-- One instruction of an engine whose `st` is `Running` (R125). The fetch is an ordinary read; a word that decodes to
no instruction takes the architectural exception `InvalidOpcode`, before any parameter is looked at (R187, R188). -/
def engineStep (s : State) : Host.Outcome State Fault Refusal :=
  match memRead (s.pc : Int) s with
  | .error f => .fault f
  | .ok (w, s1) =>
    match decode w with
    | .error _ => .next (takeInvalidOpcode s1)
    | .ok i => exec i s1

end Sys2Proof.Machine
end

