-- ==== Sys2Proof/Machine/Protocol.lean ====
section
/-! DEFINITION. Construction, invocation and the state machine of `st` (48_run_protocol.md R200 to R223): the host's
moves, `new`, the entry of `run`, `run` itself under fuel, and `peek`. -/

namespace Sys2Proof.Machine

/-- The reset state of 10_state.md R36 for a program, with nothing surviving from before (R201, R222); the input queue
and the coming moves are the host's and stay as given. -/
def State.fresh (p : Params) (program : List Int) (inq : List Int) (host : List HostMove) : State :=
  { params := p
    mem := Memory.load 0 program
    cap := program.length
    pc := 0
    rb := 0
    st := .idle
    out := []
    inq := inq
    host := host }

/-- The first value of a sequence that is not representable, if any (R218). -/
def firstUnfit (p : Params) : List Int → Option Int
  | [] => none
  | v :: rest => if fits p v then firstUnfit p rest else some v

/-- A program of this many cells lies within `ADDR_MAX` (log entry 11). -/
def withinMax (p : Params) (length : Nat) : Bool :=
  match p.addrMax with
  | none => true
  | some m => decide (length ≤ m + 1)

/-- `new(program)` on a machine in state `s`: the reset state, or a refused program (R201, R218). -/
def construct (program : List Int) (s : State) : Except Refusal State :=
  match firstUnfit s.params program with
  | some v => .error (.unrepresentableProgramCell v)
  | none =>
    if withinMax s.params program.length then .ok (State.fresh s.params program s.inq s.host)
    else .error (.programTooLong program.length)

/-- The execution state on entry to `run` (R204, R205). A `Running` engine is never entered (R223): each caller sees to
it. -/
def ExecState.entered : ExecState → ExecState
  | .idle => .running
  | .running => .running
  | .suspendedOnInput => .running
  | .halted => .halted
  | .failed => .failed

/-- The entry of `run`: the output sequence is emptied and a non-terminal engine becomes `Running`; `pc`, `rb` and the
Memory are not touched (R204), and a terminal engine stays as it is (R209). -/
def invoke (s : State) : State := (s.withOut []).withSt s.st.entered

/-- The next move of the host, made only while the engine is not `Running` (R217, R223). A host without a coming move
leaves everything as it is: no notification, no timeout (R210; log entry 6). -/
def hostStep (s : State) : Host.Outcome State Fault Refusal :=
  match s.host with
  | [] => .next s
  | .new program :: rest =>
    match construct program (s.withHost rest) with
    | .ok t => .next t
    | .error r => .refused r
  | .queue values :: rest =>
    match firstUnfit s.params values with
    | some v => .refused (.unrepresentableInput v)
    | none => .next ((s.withHost rest).withInq values)
  | .run :: rest => .next (invoke (s.withHost rest))

/-- What an executor's call of `run` comes to. `unfinished` is the executor's, no status of the machine (R211). -/
inductive RunResult where
  /-- `run` returned `(out, status)`; `engine` is the engine afterwards, its `inq` the queue's remainder (R208). -/
  | returned (engine : State) (out : List Int) (status : Status)
  /-- A model fault: `run` returns no value the spec defines (R233). -/
  | fault (f : Fault)
  /-- The call was refused (R218, R223); no engine step refuses. -/
  | refused (r : Refusal)
  /-- The call has not returned within the fuel. -/
  | unfinished (engine : State)
  deriving DecidableEq, Repr

/-- `while st = Running : step` and the return of `run` (R203), for at most `fuel` instructions. An engine that is
`Idle` has not been invoked: nothing executes and nothing returns. -/
def runLoop (fuel : Nat) (s : State) : RunResult :=
  match s.st with
  | .idle => .unfinished s
  | .suspendedOnInput => .returned s s.out .needsInput
  | .halted => .returned s s.out .ok
  | .failed => .returned s s.out .invalidOpcode
  | .running =>
    match fuel with
    | 0 => .unfinished s
    | n + 1 =>
      match engineStep s with
      | .next t => runLoop n t
      | .fault f => .fault f
      | .refused r => .refused r

/-- `run(inq)` (R203): the queue is passed by reference and is `inq` afterwards less what INs popped (R208). A queue
with an unrepresentable value is refused before anything else happens (R218, log entry 10), and so is the call of an
engine that is running (R223, log entry 23): what an executor left unfinished goes on by `runLoop`. -/
def runCall (fuel : Nat) (inq : List Int) (s : State) : RunResult :=
  if s.st = .running then .refused .runWhileRunning
  else
    match firstUnfit s.params inq with
    | some v => .refused (.unrepresentableInput v)
    | none => runLoop fuel (invoke (s.withInq inq))

/-- `peek(a)`: the cell's value, changing nothing, for `a >= 0` and an engine that is not `Running` (R212). -/
def peek (a : Int) (s : State) : Except Refusal Int :=
  if s.st = .running then .error .peekWhileRunning
  else if a < 0 then .error (.peekNegative a)
  else .ok (s.cell a.toNat)

end Sys2Proof.Machine
end

