-- ==== Sys2Proof/Machine/Step.lean ====
section
/-! DEFINITION. One step of the machine: an instruction while the engine is running, and otherwise the host's next
move (00_scope.md R19, 48_run_protocol.md R205). -/

namespace Sys2Proof.Machine

/-- One step. -/
def step (s : State) : Host.Outcome State Fault Refusal :=
  match s.st with
  | .running => engineStep s
  | .idle => hostStep s
  | .suspendedOnInput => hostStep s
  | .halted => hostStep s
  | .failed => hostStep s

/-- `s` with the instruction word `w` at `pc`, its operand cells 0, the capacity taking them in, and an invocation in
progress, so that the next step runs the instruction. It stands for a load and an invocation (log entry 7). -/
def State.withFetchWord (s : State) (_nbits w : Nat) : State :=
  { s with
    mem := (((s.mem.set s.pc (Int.ofNat w)).set (s.pc + 1) 0).set (s.pc + 2) 0).set (s.pc + 3) 0
    cap := max s.cap (s.pc + 4)
    st := .running }

end Sys2Proof.Machine
end

