-- ==== Sys2Proof/Machine/Network.lean ====
section
/-! DEFINITION. The feedback network of 48_run_protocol.md R214 to R216 as a host program over engines that share
nothing (60_exceptions.md R246): a ring driven by one round-robin loop. The network stands beside the engine; no rule
of the engine depends on it. Each engine's queue is its `inq`; what the host adds to a queue at the start (phase
settings, a first signal) is in the initial ring (log entry 20). -/

namespace Sys2Proof.Machine

/-- The ring: the engines in order and the index of the one to be invoked next. -/
structure EngineRing where
  engines : List State
  turn : Nat
  deriving DecidableEq, Repr

/-- What one turn of the round-robin comes to. -/
inductive RingOutcome where
  /-- The engine stopped, its output went to the next engine's queue, and the next engine is to be invoked. -/
  | next (r : EngineRing)
  /-- The last engine halted on this pass: its final output value, if any, is the network's result (R214). -/
  | done (result : Option Int) (r : EngineRing)
  /-- The engine at this index reported `InvalidOpcode`: the run is aborted (R215). -/
  | aborted (index : Nat)
  /-- There is no engine at the turn's index. -/
  | noEngine
  /-- A model fault of the invoked engine. -/
  | fault (f : Fault)
  /-- A refusal of the invoked engine. -/
  | refused (r : Refusal)
  /-- The invocation has not returned within the fuel. -/
  | unfinished
  deriving DecidableEq, Repr

/-- Append values to the queue of the engine at an index. -/
def forward (vs : List Int) : Nat → List State → List State
  | _, [] => []
  | 0, e :: rest => e.withInq (e.inq ++ vs) :: rest
  | n + 1, e :: rest => e :: forward vs n rest

/-- Replace the engine at an index. -/
def replaceEngine (t : State) : Nat → List State → List State
  | _, [] => []
  | 0, _ :: rest => t :: rest
  | n + 1, e :: rest => e :: replaceEngine t n rest

/-- The engine at an index. -/
def engineAt : Nat → List State → Option State
  | _, [] => none
  | 0, e :: _ => some e
  | n + 1, _ :: rest => engineAt n rest

/-- One turn: invoke the engine whose turn it is with its own queue and forward what it returns (R214); abort on
`InvalidOpcode` (R215). MODEL'S CHOICE (log entry 20): the round-robin goes on invoking an engine that returned `Ok` on
an earlier pass, which executes nothing and forwards nothing (R209), although the host's duty of 70_reset_and_hazards.md
R273 (5) is to stop invoking it. -/
def ringTurn (fuel : Nat) (r : EngineRing) : RingOutcome :=
  match engineAt r.turn r.engines with
  | none => .noEngine
  | some e =>
    match runCall fuel e.inq e with
    | .fault f => .fault f
    | .refused x => .refused x
    | .unfinished _ => .unfinished
    | .returned _ _ .invalidOpcode => .aborted r.turn
    | .returned t out .needsInput =>
      let n := (r.turn + 1) % r.engines.length
      .next { engines := forward out n (replaceEngine t r.turn r.engines), turn := n }
    | .returned t out .ok =>
      let n := (r.turn + 1) % r.engines.length
      let after : EngineRing := { engines := forward out n (replaceEngine t r.turn r.engines), turn := n }
      if r.turn + 1 = r.engines.length then .done out.getLast? after else .next after

end Sys2Proof.Machine
end

