-- ==== Sys2Proof/Machine/Ports.lean ====
section
/-! DEFINITION. The port-level binding of 48_run_protocol.md R220, the spec's own illustration; no other rule depends
on it and it stands beside the engine. One `portStep` is one sampling of the inputs; there is no clock and no timing.
Data ports are `CELL_BITS` wide and carry two's complement, most significant bit first (20_memory.md R59). What the
spec leaves open of the sampling is the model's choice (log entry 19), and so is the form of a word (log entry 28). -/

namespace Sys2Proof.Machine

/-! ### Words on the data ports -/

/-- A word on a data port. -/
inductive PortWord where
  /-- With a finite `CELL_BITS`: the bits, most significant first (R59). -/
  | bits (word : List Bool)
  /-- With an unbounded `CELL_BITS`: the signed integer itself (log entry 28). -/
  | integer (v : Int)
  deriving DecidableEq, Repr

/-- The `n` low bits of an integer in two's complement, most significant first. -/
def bitsOf : Nat → Int → List Bool
  | 0, _ => []
  | n + 1, v => decide (v / 2 ^ n % 2 = 1) :: bitsOf n v

/-- The value of bits as an unsigned number. -/
def unsignedOf : List Bool → Nat
  | [] => 0
  | b :: rest => (if b then 2 ^ rest.length else 0) + unsignedOf rest

/-- The value of bits as a two's complement number: the first bit weighs negatively. -/
def signedOf : List Bool → Int
  | [] => 0
  | b :: rest => (unsignedOf rest : Int) - (if b then 2 ^ rest.length else 0)

/-- The word a data port shows for a value. -/
def portWord (p : Params) (v : Int) : PortWord :=
  match p.cellBits with
  | none => .integer v
  | some n => .bits (bitsOf n v)

/-- The value of a word on a data port; a word of another width cannot stand on it. -/
def portValue (p : Params) (w : PortWord) : Except Refusal Int :=
  match p.cellBits, w with
  | none, .integer v => .ok v
  | none, .bits _ => .error .portWordWidth
  | some n, .bits word => if word.length = n then .ok (signedOf word) else .error .portWordWidth
  | some _, .integer _ => .error .portWordWidth

/-! ### The ports -/

/-- The inputs of one sampling. -/
structure PortIn where
  loadValid : Bool
  loadData : PortWord
  loadLast : Bool
  start : Bool
  inValid : Bool
  inData : PortWord
  peekAddr : Nat
  deriving DecidableEq, Repr

/-- The outputs after one sampling; `none` where R220 does not call the port valid. -/
structure PortOut where
  /-- True exactly while `st = Running`. -/
  busy : Bool
  /-- Valid when not busy after a `start`; 3 is never produced. -/
  status : Option (BitVec 2)
  /-- One pulse per successful IN. -/
  inPop : Bool
  /-- One pulse per OUT. -/
  outValid : Bool
  /-- The value output, with the pulse. -/
  outData : Option PortWord
  /-- Valid while not busy. -/
  peekData : Option PortWord
  deriving DecidableEq, Repr

/-- An engine behind ports: the program cells streamed in so far, and whether `start` came since construction. -/
structure PortState where
  engine : State
  loading : List Int
  started : Bool
  deriving DecidableEq, Repr

/-- The outputs, from the engine before and after. -/
def portOut (before after : State) (started : Bool) (peekAddr : Nat) : PortOut :=
  let busy := decide (after.st = .running)
  let pushed := decide (before.out.length < after.out.length)
  { busy := busy
    status := if busy || !started then none else after.st.status.map fun x => BitVec.ofNat 2 x.code
    inPop := decide (after.inq.length < before.inq.length)
    outValid := pushed
    outData := if pushed then after.out.getLast?.map (portWord after.params) else none
    peekData := if busy then none else some (portWord after.params (after.cell peekAddr)) }

/-- What an idle port state answers: nothing popped, nothing output. -/
def portQuiet (p : PortState) (i : PortIn) : PortState × PortOut :=
  (p, portOut p.engine p.engine p.started i.peekAddr)

/-- The queue the input port shows now: its one value, or empty where `in_valid = 0`. -/
def portQueue (i : PortIn) (p : Params) : Except Refusal (List Int) :=
  if i.inValid then
    match portValue p i.inData with
    | .ok v => .ok [v]
    | .error r => .error r
  else .ok []

/-- One sampling of a busy engine: one instruction, with the queue the input port shows; an IN at `in_valid = 0`
suspends. MODEL'S CHOICE (log entry 19): one instruction a sampling, and program cells and `load_last` offered meanwhile
are not taken; that `start` is not taken is R220's. -/
def portExecute (i : PortIn) (p : PortState) : Host.Outcome (PortState × PortOut) Fault Refusal :=
  match portQueue i p.engine.params with
  | .error r => .refused r
  | .ok queue =>
    let e := p.engine.withInq queue
    match engineStep e with
    | .next t => .next ({ p with engine := t }, portOut e t p.started i.peekAddr)
    | .fault f => .fault f
    | .refused r => .refused r

/-- One sampling that streams a program cell in; the cell with `load_last` completes `new`. -/
def portLoad (i : PortIn) (p : PortState) : Host.Outcome (PortState × PortOut) Fault Refusal :=
  match portValue p.engine.params i.loadData with
  | .error r => .refused r
  | .ok v =>
    if i.loadLast then
      match construct (p.loading ++ [v]) p.engine with
      | .ok t => .next (portQuiet { engine := t, loading := [], started := false } i)
      | .error r => .refused r
    else .next (portQuiet { p with loading := p.loading ++ [v] } i)

/-- One sampling. MODEL'S CHOICE (log entry 19), on which R220 is silent: of a program cell and a `start` offered at
once the cell is taken; a `start` after some program cells and before `load_last` invokes the engine constructed last,
and the cells streamed in so far stay for the load that is completed later; `load_last` without `load_valid` does
nothing. -/
def portStep (i : PortIn) (p : PortState) : Host.Outcome (PortState × PortOut) Fault Refusal :=
  if p.engine.st = .running then portExecute i p
  else if i.loadValid then portLoad i p
  else if i.start then .next (portQuiet { p with engine := invoke p.engine, started := true } i)
  else .next (portQuiet p i)

end Sys2Proof.Machine
end

