-- ==== Sys2Proof/Safety.lean ====
section
/-! DEFINITION. The terms claims are stated in: what a parameter is worth and which fault it raises, read off the
state in which the instruction starts; what an instruction keeps; the machine's invariant; which instruction can raise
which fault (60_exceptions.md R235). -/

namespace Sys2Proof.Machine

/-! ### Parameters, read off the state in which the instruction starts -/

/-- The parameter cell `k` of the instruction at `pc`. -/
def paramCell (s : State) (k : Nat) : Int := s.cell (s.pc + k)

/-- The effective address of parameter `k` in mode `m`, if the mode has one (40_dispatch_and_parameters.md R119). -/
def paramAddress (s : State) (k : Nat) (m : Mode) : Option Int := effectiveAddress m (paramCell s k) s.rb

/-- The value of a source parameter whose resolution raises no fault (R121). -/
def sourceValue (s : State) (k : Nat) (m : Mode) : Int :=
  match paramAddress s k m with
  | some e => s.cell e.toNat
  | none => paramCell s k

/-- The address of a destination parameter whose resolution raises no fault (R120). -/
def destAddress (s : State) (k : Nat) (m : Mode) : Nat := ((paramAddress s k m).getD 0).toNat

/-- The fault resolving source parameter `k` raises, if any: the fetch of its cell, then its mode, then its address
(60_exceptions.md R236). -/
def sourceFault (s : State) (k : Nat) (m : Mode) : Option Fault :=
  match addressFault s.params ((s.pc : Int) + (k : Int)) with
  | some f => some f
  | none =>
    match m with
    | .immediate => none
    | .position => addressFault s.params (paramCell s k)
    | .relative => addressFault s.params (s.rb + paramCell s k)
    | .undefined _ => some (.invalidMode s.word k)

/-- The fault resolving destination parameter `k` raises, if any (R236). -/
def destFault (s : State) (k : Nat) (m : Mode) : Option Fault :=
  match addressFault s.params ((s.pc : Int) + (k : Int)) with
  | some f => some f
  | none =>
    match m with
    | .immediate => some (.immediateWriteTarget s.word k)
    | .position => addressFault s.params (paramCell s k)
    | .relative => addressFault s.params (s.rb + paramCell s k)
    | .undefined _ => some (.invalidMode s.word k)

/-- The fault of `check(r)`, if any (41_arithmetic.md R144). -/
def overflowFault (s : State) (r : Int) : Option Fault :=
  if fits s.params r then none else some (.overflow r)

/-- The fault of a jump to `t`, if it is taken and negative (43_jumps.md R163). -/
def targetFault (taken : Bool) (t : Int) : Option Fault :=
  if taken && decide (t < 0) then some (.negativeJumpTarget t) else none

/-- The first fault of a list of steps, in order (R236). -/
def firstFault : List (Option Fault) → Option Fault
  | [] => none
  | some f :: _ => some f
  | none :: rest => firstFault rest

/-- The cell an instruction stores to in state `s`: the destination of ADD, MUL, LT, EQ, and of an IN that finds a
value (20_memory.md R52). -/
def storedTo (i : Instr) (s : State) : Option Nat :=
  match i with
  | .add _ _ dst => some (destAddress s 3 dst)
  | .mul _ _ dst => some (destAddress s 3 dst)
  | .inp dst => if s.inq = [] then none else some (destAddress s 1 dst)
  | .out _ => none
  | .jnz _ _ => none
  | .jz _ _ => none
  | .lt _ _ dst => some (destAddress s 3 dst)
  | .eq _ _ dst => some (destAddress s 3 dst)
  | .arb _ => none
  | .halt => none

/-- The value an instruction stores in state `s`, where it stores one (20_memory.md R52). -/
def storedValue (i : Instr) (s : State) : Option Int :=
  match i with
  | .add a b _ => some (sourceValue s 1 a + sourceValue s 2 b)
  | .mul a b _ => some (sourceValue s 1 a * sourceValue s 2 b)
  | .inp _ => s.inq.head?
  | .out _ => none
  | .jnz _ _ => none
  | .jz _ _ => none
  | .lt a b _ => some (if sourceValue s 1 a < sourceValue s 2 b then 1 else 0)
  | .eq a b _ => some (if sourceValue s 1 a = sourceValue s 2 b then 1 else 0)
  | .arb _ => none
  | .halt => none

/-- No defined opcode: a negative word, or last two digits 0 or 10 to 98 (46_halt_and_invalid.md R187, R188). -/
def invalidWord (w : Int) : Prop := w < 0 ∨ w % 100 ∉ [1, 2, 3, 4, 5, 6, 7, 8, 9, 99]

/-! ### What is kept -/

/-- Every register, queue and sequence but `pc` is as before, and so are the parameters and the host's moves. -/
def KeepsRegisters (s t : State) : Prop :=
  t.rb = s.rb ∧ t.st = s.st ∧ t.out = s.out ∧ t.inq = s.inq ∧ t.params = s.params ∧ t.host = s.host

/-- The registers, the queue and the output are as before, `pc` and `st` apart. -/
def KeepsRest (s t : State) : Prop :=
  t.rb = s.rb ∧ t.out = s.out ∧ t.inq = s.inq ∧ t.params = s.params ∧ t.host = s.host

/-- Every cell reads as before. -/
def KeepsCells (s t : State) : Prop := ∀ a, t.cell a = s.cell a

/-- Every cell but the one at `e` reads as before. -/
def KeepsCellsBut (e : Nat) (s t : State) : Prop := ∀ a, a ≠ e → t.cell a = s.cell a

/-- Two states that differ at most in the hidden capacity (10_state.md R30). -/
def SameButCap (s t : State) : Prop := t = s.withCap t.cap

/-- Two outcomes that differ at most in the hidden capacity. -/
def SameOutcomeButCap : Host.Outcome State Fault Refusal → Host.Outcome State Fault Refusal → Prop
  | .next s, .next t => SameButCap s t
  | .fault f, .fault g => f = g
  | .refused r, .refused q => r = q
  | _, _ => False

/-! ### The invariant -/

/-- What holds of the reset state and is kept by every step. -/
structure Inv (s : State) : Prop where
  /-- A finite `CELL_BITS` is at least 2. -/
  paramsWf : s.params.wf = true
  /-- The Memory is in canonical form. -/
  memWf : s.mem.wf = true
  /-- Cells at or above the capacity do not exist (10_state.md R30). -/
  cellsExist : ∀ c ∈ s.mem, c.1 < s.cap
  /-- The capacity stays within `ADDR_MAX` (20_memory.md R56). -/
  capBounded : ∀ m, s.params.addrMax = some m → s.cap ≤ m + 1
  /-- Every cell is representable. -/
  cellsFit : ∀ c ∈ s.mem, fits s.params c.2 = true
  /-- The relative base is representable. -/
  rbFits : fits s.params s.rb = true
  /-- Every output is representable. -/
  outFits : ∀ v ∈ s.out, fits s.params v = true
  /-- Every input is representable. -/
  inqFits : ∀ v ∈ s.inq, fits s.params v = true

/-! ### The table of 60_exceptions.md R235 -/

/-- Which instruction can raise which model fault (R235). -/
def mayRaise : Instr → Fault → Bool
  | _, .invalidMode _ 0 => false
  | i, .invalidMode _ (k + 1) => decide (k + 1 < i.cells)
  | .add _ _ _, .immediateWriteTarget _ k => decide (k = 3)
  | .mul _ _ _, .immediateWriteTarget _ k => decide (k = 3)
  | .lt _ _ _, .immediateWriteTarget _ k => decide (k = 3)
  | .eq _ _ _, .immediateWriteTarget _ k => decide (k = 3)
  | .inp _, .immediateWriteTarget _ k => decide (k = 1)
  | _, .immediateWriteTarget _ _ => false
  | .halt, .negativeAddress _ => false
  | _, .negativeAddress a => decide (a < 0)
  | .jnz _ _, .negativeJumpTarget t => decide (t < 0)
  | .jz _ _, .negativeJumpTarget t => decide (t < 0)
  | _, .negativeJumpTarget _ => false
  | .add _ _ _, .overflow _ => true
  | .mul _ _ _, .overflow _ => true
  | .arb _, .overflow _ => true
  | _, .overflow _ => false
  | .halt, .memoryExhausted _ => false
  | _, .memoryExhausted _ => true

/-! ### The feedback ring (48_run_protocol.md R214) -/

/-- The ring after its engine `r.turn` returned as `t` with the output `out`: that engine is `t`, the engine after it,
around the ring, has the output at the end of its queue and is the next to be invoked, and every other engine is as it
was. -/
def Forwarded (r : EngineRing) (t : State) (out : List Int) (r' : EngineRing) : Prop :=
  r'.engines.length = r.engines.length ∧
  r'.turn = (r.turn + 1) % r.engines.length ∧
  ∀ k, engineAt k r'.engines =
    let e := if k = r.turn then some t else engineAt k r.engines
    if k = r'.turn then e.map fun x => x.withInq (x.inq ++ out) else e

end Sys2Proof.Machine
end

