-- ==== Sys2Proof/Certificates/Slice0/Obligations.lean ====
section
/-! DEFINITION. The statements for the provers. -/

open Sys2Proof Sys2Proof.Machine

/-! ### Encoding -/

/-- The words of the decoding table of 95_test_vectors.md A.3 and of 30_encoding.md R91, one per instruction and more,
decode to the instructions they stand for. -/
def Obligations.SampleWordsDecode : Prop :=
  decode 1002 = .ok (.mul .position .immediate .position) ∧
  decode 1 = .ok (.add .position .position .position) ∧
  decode 21101 = .ok (.add .immediate .immediate .relative) ∧
  decode 204 = .ok (.out .relative) ∧
  decode 109 = .ok (.arb .immediate) ∧
  decode 1105 = .ok (.jnz .immediate .immediate) ∧
  decode 1106 = .ok (.jz .immediate .immediate) ∧
  decode 203 = .ok (.inp .relative) ∧
  decode 1107 = .ok (.lt .immediate .immediate .position) ∧
  decode 1008 = .ok (.eq .position .immediate .position) ∧
  decode 99 = .ok .halt ∧
  decode 12399 = .ok .halt ∧
  decode 1104 = .ok (.out .immediate) ∧
  decode 100001 = .ok (.add .position .position .position)

/-- Decoding the word of an instruction gives it back, with every parameter at every mode digit 0 to 9
(30_encoding.md R80, R85). -/
def Obligations.DecodeEncodeAgree : Prop :=
  ∀ i : Instr, decode (encode i : Int) = .ok i

/-- The canonical words of the table of 30_encoding.md R85, as written there. -/
def Obligations.CanonicalWordsListed : Prop :=
  ∀ w : Nat, (∃ i : Instr, i.wellFormed = true ∧ encode i = w) ↔
    w ∈ [1, 101, 201, 1001, 1101, 1201, 2001, 2101, 2201, 20001, 20101, 20201, 21001, 21101, 21201, 22001, 22101, 22201]
      ++ [2, 102, 202, 1002, 1102, 1202, 2002, 2102, 2202, 20002, 20102, 20202, 21002, 21102, 21202, 22002, 22102, 22202]
      ++ [3, 203, 4, 104, 204, 5, 105, 205, 1005, 1105, 1205, 2005, 2105, 2205]
      ++ [6, 106, 206, 1006, 1106, 1206, 2006, 2106, 2206]
      ++ [7, 107, 207, 1007, 1107, 1207, 2007, 2107, 2207, 20007, 20107, 20207, 21007, 21107, 21207, 22007, 22107, 22207]
      ++ [8, 108, 208, 1008, 1108, 1208, 2008, 2108, 2208, 20008, 20108, 20208, 21008, 21108, 21208, 22008, 22108, 22208]
      ++ [9, 109, 209, 99]

/-- The mode of parameter `k` is `(w div 10^(k+1)) mod 10` (R116): in a word written with the digits `C B A` before
the opcode 01, and any digits above them, `A`, `B` and `C` are the modes of parameters 1, 2 and 3. -/
def Obligations.ModeDigitsByWeight : Prop :=
  (∀ w k : Nat, modeDigit w k = w / 10 ^ (k + 1) % 10) ∧
  ∀ a b c high : Nat, a < 10 → b < 10 → c < 10 →
    decode ((1 + 100 * a + 1000 * b + 10000 * c + 100000 * high : Nat) : Int) =
      .ok (.add (Mode.ofDigit a) (Mode.ofDigit b) (Mode.ofDigit c))

/-- Digits no parameter uses have no effect (the spec's decision D6, log entry 12): a word with the same opcode and
the same digits for the parameters the instruction has decodes to the same instruction. -/
def Obligations.UnusedDigitsIgnored : Prop :=
  ∀ (w w' : Nat) (i : Instr), decode (w : Int) = .ok i → opcodeOf w' = opcodeOf w →
    (∀ k, 1 ≤ k → k < i.cells → modeDigit w' k = modeDigit w k) → decode (w' : Int) = .ok i

/-- A non-negative word is an instruction exactly where its last two digits are one of the ten opcode values
(30_encoding.md R84), the instruction has that opcode, and the opcode alone gives the length (R88). -/
def Obligations.OpcodeGivesInstructionAndLength : Prop :=
  ∀ w : Nat,
    ((∃ i, decode (w : Int) = .ok i) ↔ w % 100 ∈ [1, 2, 3, 4, 5, 6, 7, 8, 9, 99]) ∧
    ∀ i, decode (w : Int) = .ok i →
      i.opcode = w % 100 ∧
      i.cells =
        if w % 100 = 99 then 1
        else if w % 100 ∈ [3, 4, 9] then 2
        else if w % 100 ∈ [5, 6] then 3
        else 4

/-- A negative word decodes to nothing whatever its digits (the spec's decision D7, log entry 13). -/
def Obligations.NegativeWordsRejected : Prop :=
  ∀ w : Int, w < 0 → decode w = .error (.negativeWord w)

/-! ### Memory -/

/-- `MemRead(a, 1)` in every case (20_memory.md R54): a negative address, an address above a finite `ADDR_MAX`, and
otherwise the cell's value, 0 where nothing is listed, with the capacity above `a` and nothing else moved. -/
def Obligations.MemReadOutcomes : Prop :=
  ∀ (s : State) (a : Int),
    (a < 0 → memRead a s = .error (.negativeAddress a)) ∧
    (∀ m, s.params.addrMax = some m → (m : Int) < a → memRead a s = .error (.memoryExhausted a)) ∧
    (0 ≤ a → (∀ m, s.params.addrMax = some m → a ≤ m) →
      ∃ c, a.toNat < c ∧ s.cap ≤ c ∧ (a.toNat < s.cap → c = s.cap) ∧
        memRead a s = .ok (s.cell a.toNat, s.withCap c) ∧
        ((∀ v, (a.toNat, v) ∉ s.mem) → s.cell a.toNat = 0))

/-- `MemWrite(a, 1, v)` in every case (20_memory.md section 2): the faults of a read, and otherwise exactly one cell
changed, the capacity above `a`, and nothing else moved. That an unrepresentable `v` is taken like any other is the
model's (log entry 2), and so is the canonical form (log entry 1). -/
def Obligations.MemWriteOutcomes : Prop :=
  ∀ (s : State) (a v : Int), s.mem.wf = true →
    (a < 0 → memWrite a v s = .error (.negativeAddress a)) ∧
    (∀ m, s.params.addrMax = some m → (m : Int) < a → memWrite a v s = .error (.memoryExhausted a)) ∧
    (0 ≤ a → (∀ m, s.params.addrMax = some m → a ≤ m) →
      ∃ t, memWrite a v s = .ok t ∧ t.cell a.toNat = v ∧ KeepsCellsBut a.toNat s t ∧ a.toNat < t.cap ∧
        s.cap ≤ t.cap ∧ (a.toNat < s.cap → t.cap = s.cap) ∧ KeepsRegisters s t ∧ t.pc = s.pc ∧ t.mem.wf = true)

/-- `GROW(cap, a)` whatever the free value (20_memory.md R56, log entry 4): the referenced address exists afterwards,
the capacity has not shrunk, and it stays within `ADDR_MAX`. -/
def Obligations.GrowthWithinBounds : Prop :=
  ∀ (p : Params) (cap a : Nat), cap ≤ a → (∀ m, p.addrMax = some m → a ≤ m) →
    a + 1 ≤ grow p cap a ∧ cap < grow p cap a ∧ ∀ m, p.addrMax = some m → grow p cap a ≤ m + 1

/-! ### The instructions: what each does, and where it raises which model fault -/

/-- ADD (41_arithmetic.md R140): opcode 1, the exact signed sum in the destination cell and `pc + 4`; the first fault
in parameter order, then `Overflow`. -/
def Obligations.AddStoresSum : Prop :=
  (∀ w : Nat, w % 100 = 1 → decode (w : Int) = .ok (.add (modeOf w 1) (modeOf w 2) (modeOf w 3))) ∧
  ∀ (s : State) (a b d : Mode), s.mem.wf = true →
    (firstFault [sourceFault s 1 a, sourceFault s 2 b, destFault s 3 d,
        overflowFault s (sourceValue s 1 a + sourceValue s 2 b)] = none →
      ∃ t, exec (.add a b d) s = .next t ∧
        t.cell (destAddress s 3 d) = sourceValue s 1 a + sourceValue s 2 b ∧
        KeepsCellsBut (destAddress s 3 d) s t ∧ t.pc = s.pc + 4 ∧ KeepsRegisters s t ∧ s.cap ≤ t.cap) ∧
    ∀ f, firstFault [sourceFault s 1 a, sourceFault s 2 b, destFault s 3 d,
        overflowFault s (sourceValue s 1 a + sourceValue s 2 b)] = some f →
      exec (.add a b d) s = .fault f

/-- MUL (41_arithmetic.md R141): the exact signed product, otherwise as ADD. -/
def Obligations.MulStoresProduct : Prop :=
  (∀ w : Nat, w % 100 = 2 → decode (w : Int) = .ok (.mul (modeOf w 1) (modeOf w 2) (modeOf w 3))) ∧
  ∀ (s : State) (a b d : Mode), s.mem.wf = true →
    (firstFault [sourceFault s 1 a, sourceFault s 2 b, destFault s 3 d,
        overflowFault s (sourceValue s 1 a * sourceValue s 2 b)] = none →
      ∃ t, exec (.mul a b d) s = .next t ∧
        t.cell (destAddress s 3 d) = sourceValue s 1 a * sourceValue s 2 b ∧
        KeepsCellsBut (destAddress s 3 d) s t ∧ t.pc = s.pc + 4 ∧ KeepsRegisters s t ∧ s.cap ≤ t.cap) ∧
    ∀ f, firstFault [sourceFault s 1 a, sourceFault s 2 b, destFault s 3 d,
        overflowFault s (sourceValue s 1 a * sourceValue s 2 b)] = some f →
      exec (.mul a b d) s = .fault f

/-- LT (44_compare.md R170): 1 where `a < b` as signed integers and 0 otherwise, always written; no overflow. -/
def Obligations.LtStoresTruthValue : Prop :=
  (∀ w : Nat, w % 100 = 7 → decode (w : Int) = .ok (.lt (modeOf w 1) (modeOf w 2) (modeOf w 3))) ∧
  ∀ (s : State) (a b d : Mode), s.mem.wf = true →
    (firstFault [sourceFault s 1 a, sourceFault s 2 b, destFault s 3 d] = none →
      ∃ t, exec (.lt a b d) s = .next t ∧
        t.cell (destAddress s 3 d) = (if sourceValue s 1 a < sourceValue s 2 b then 1 else 0) ∧
        KeepsCellsBut (destAddress s 3 d) s t ∧ t.pc = s.pc + 4 ∧ KeepsRegisters s t ∧ s.cap ≤ t.cap) ∧
    ∀ f, firstFault [sourceFault s 1 a, sourceFault s 2 b, destFault s 3 d] = some f →
      exec (.lt a b d) s = .fault f

/-- EQ (44_compare.md R171): 1 where `a = b` and 0 otherwise, always written; no overflow. -/
def Obligations.EqStoresTruthValue : Prop :=
  (∀ w : Nat, w % 100 = 8 → decode (w : Int) = .ok (.eq (modeOf w 1) (modeOf w 2) (modeOf w 3))) ∧
  ∀ (s : State) (a b d : Mode), s.mem.wf = true →
    (firstFault [sourceFault s 1 a, sourceFault s 2 b, destFault s 3 d] = none →
      ∃ t, exec (.eq a b d) s = .next t ∧
        t.cell (destAddress s 3 d) = (if sourceValue s 1 a = sourceValue s 2 b then 1 else 0) ∧
        KeepsCellsBut (destAddress s 3 d) s t ∧ t.pc = s.pc + 4 ∧ KeepsRegisters s t ∧ s.cap ≤ t.cap) ∧
    ∀ f, firstFault [sourceFault s 1 a, sourceFault s 2 b, destFault s 3 d] = some f →
      exec (.eq a b d) s = .fault f

/-- IN with a value in the queue (42_input_output.md R150): exactly the front value is consumed and stored, `pc + 2`;
a bad destination raises its fault. -/
def Obligations.InStoresFrontValue : Prop :=
  (∀ w : Nat, w % 100 = 3 → decode (w : Int) = .ok (.inp (modeOf w 1))) ∧
  ∀ (s : State) (d : Mode) (v : Int) (rest : List Int), s.mem.wf = true → s.inq = v :: rest →
    (destFault s 1 d = none →
      ∃ t, exec (.inp d) s = .next t ∧ t.cell (destAddress s 1 d) = v ∧ KeepsCellsBut (destAddress s 1 d) s t ∧
        t.inq = rest ∧ t.pc = s.pc + 2 ∧ t.rb = s.rb ∧ t.st = s.st ∧ t.out = s.out ∧ t.params = s.params ∧
        t.host = s.host ∧ s.cap ≤ t.cap) ∧
    ∀ f, destFault s 1 d = some f → exec (.inp d) s = .fault f

/-- IN with an empty queue (42_input_output.md R150): the engine suspends and nothing else changes but the hidden
capacity. That a bad destination faults before the queue is looked at is the spec's decision D10 (log entry 15). -/
def Obligations.InSuspendsOnEmptyQueue : Prop :=
  ∀ (s : State) (d : Mode), s.inq = [] →
    (destFault s 1 d = none →
      ∃ t, exec (.inp d) s = .next t ∧ t.st = .suspendedOnInput ∧ KeepsCells s t ∧ t.pc = s.pc ∧ KeepsRest s t ∧
        s.cap ≤ t.cap) ∧
    ∀ f, destFault s 1 d = some f → exec (.inp d) s = .fault f

/-- OUT (42_input_output.md R151): the value is appended to the output sequence, `pc + 2`, no cell written. -/
def Obligations.OutAppendsValue : Prop :=
  (∀ w : Nat, w % 100 = 4 → decode (w : Int) = .ok (.out (modeOf w 1))) ∧
  ∀ (s : State) (a : Mode),
    (sourceFault s 1 a = none →
      ∃ t, exec (.out a) s = .next t ∧ t.out = s.out ++ [sourceValue s 1 a] ∧ t.pc = s.pc + 2 ∧ KeepsCells s t ∧
        t.rb = s.rb ∧ t.st = s.st ∧ t.inq = s.inq ∧ t.params = s.params ∧ t.host = s.host ∧ s.cap ≤ t.cap) ∧
    ∀ f, sourceFault s 1 a = some f → exec (.out a) s = .fault f

/-- JNZ (43_jumps.md R160): a nonzero value jumps to the target's value, 0 advances by 3; both parameters are
resolved either way; a taken jump to a negative target raises `NegativeJumpTarget` (R163). -/
def Obligations.JnzJumpsWhenNonzero : Prop :=
  (∀ w : Nat, w % 100 = 5 → decode (w : Int) = .ok (.jnz (modeOf w 1) (modeOf w 2))) ∧
  ∀ (s : State) (a g : Mode),
    (firstFault [sourceFault s 1 a, sourceFault s 2 g,
        targetFault (decide (sourceValue s 1 a ≠ 0)) (sourceValue s 2 g)] = none →
      ∃ t, exec (.jnz a g) s = .next t ∧
        (t.pc : Int) = (if sourceValue s 1 a ≠ 0 then sourceValue s 2 g else s.pc + 3) ∧
        KeepsCells s t ∧ KeepsRegisters s t ∧ s.cap ≤ t.cap) ∧
    ∀ f, firstFault [sourceFault s 1 a, sourceFault s 2 g,
        targetFault (decide (sourceValue s 1 a ≠ 0)) (sourceValue s 2 g)] = some f →
      exec (.jnz a g) s = .fault f

/-- JZ (43_jumps.md R161): as JNZ, with the jump taken on 0. -/
def Obligations.JzJumpsWhenZero : Prop :=
  (∀ w : Nat, w % 100 = 6 → decode (w : Int) = .ok (.jz (modeOf w 1) (modeOf w 2))) ∧
  ∀ (s : State) (a g : Mode),
    (firstFault [sourceFault s 1 a, sourceFault s 2 g,
        targetFault (decide (sourceValue s 1 a = 0)) (sourceValue s 2 g)] = none →
      ∃ t, exec (.jz a g) s = .next t ∧
        (t.pc : Int) = (if sourceValue s 1 a = 0 then sourceValue s 2 g else s.pc + 3) ∧
        KeepsCells s t ∧ KeepsRegisters s t ∧ s.cap ≤ t.cap) ∧
    ∀ f, firstFault [sourceFault s 1 a, sourceFault s 2 g,
        targetFault (decide (sourceValue s 1 a = 0)) (sourceValue s 2 g)] = some f →
      exec (.jz a g) s = .fault f

/-- ARB (45_relative_base.md R180): the value, read through the old `rb`, is added to `rb`, `pc + 2`, no cell
written; `Overflow` with a finite `CELL_BITS`. -/
def Obligations.ArbAddsToRelativeBase : Prop :=
  (∀ w : Nat, w % 100 = 9 → decode (w : Int) = .ok (.arb (modeOf w 1))) ∧
  ∀ (s : State) (a : Mode),
    (firstFault [sourceFault s 1 a, overflowFault s (s.rb + sourceValue s 1 a)] = none →
      ∃ t, exec (.arb a) s = .next t ∧ t.rb = s.rb + sourceValue s 1 a ∧ t.pc = s.pc + 2 ∧ KeepsCells s t ∧
        t.st = s.st ∧ t.out = s.out ∧ t.inq = s.inq ∧ t.params = s.params ∧ t.host = s.host ∧ s.cap ≤ t.cap) ∧
    ∀ f, firstFault [sourceFault s 1 a, overflowFault s (s.rb + sourceValue s 1 a)] = some f →
      exec (.arb a) s = .fault f

/-- HALT (46_halt_and_invalid.md R185; that `pc` stays is the spec's decision D11, log entry 14): the engine is
halted and nothing else changes, on every state. -/
def Obligations.HaltStops : Prop :=
  (∀ w : Nat, w % 100 = 99 → decode (w : Int) = .ok .halt) ∧
  ∀ s : State, ∃ t, exec .halt s = .next t ∧ t.st = .halted ∧ t.pc = s.pc ∧ t.cap = s.cap ∧ KeepsCells s t ∧
    KeepsRest s t

/-! ### Rules over all instructions -/

/-- Every byte of memory, that is every cell, is unchanged but the one the instruction stores to; OUT, JNZ, JZ, ARB,
HALT and a suspended IN store to none (20_memory.md R52, R55). -/
def Obligations.CellFrame : Prop :=
  ∀ (i : Instr) (s t : State), exec i s = .next t → ∀ a, storedTo i s ≠ some a → t.cell a = s.cell a

/-- Every register is unchanged but the one the instruction is about (10_state.md R24, R25, R31, R32): `rb` but for
ARB, `out` but for OUT, `inq` but for IN, `st` but for IN and HALT; the capacity never shrinks. -/
def Obligations.RegisterFrame : Prop :=
  ∀ (i : Instr) (s t : State), exec i s = .next t →
    ((∀ a, i ≠ .arb a) → t.rb = s.rb) ∧
    ((∀ a, i ≠ .out a) → t.out = s.out) ∧
    ((∀ d, i ≠ .inp d) → t.inq = s.inq) ∧
    ((∀ d, i ≠ .inp d) → i ≠ .halt → t.st = s.st) ∧
    t.params = s.params ∧ t.host = s.host ∧ s.cap ≤ t.cap

/-- How `pc` ends (40_dispatch_and_parameters.md R114): the fixed advance, or a taken jump's target, or unchanged by
HALT, a suspension and an invalid opcode. -/
def Obligations.PcUpdate : Prop :=
  (∀ (i : Instr) (s t : State), exec i s = .next t →
    match i with
    | .add _ _ _ => t.pc = s.pc + 4
    | .mul _ _ _ => t.pc = s.pc + 4
    | .inp _ => t.pc = if s.inq = [] then s.pc else s.pc + 2
    | .out _ => t.pc = s.pc + 2
    | .jnz a g => (t.pc : Int) = if sourceValue s 1 a ≠ 0 then sourceValue s 2 g else s.pc + 3
    | .jz a g => (t.pc : Int) = if sourceValue s 1 a = 0 then sourceValue s 2 g else s.pc + 3
    | .lt _ _ _ => t.pc = s.pc + 4
    | .eq _ _ _ => t.pc = s.pc + 4
    | .arb _ => t.pc = s.pc + 2
    | .halt => t.pc = s.pc) ∧
  ∀ s : State, (takeInvalidOpcode s).pc = s.pc

/-- Input is taken from the queue's front only and by IN only, output is appended only and by OUT only
(10_state.md R31, R32): an instruction pops at most one value and pushes at most one. -/
def Obligations.QueueEnds : Prop :=
  ∀ (i : Instr) (s t : State), exec i s = .next t →
    (t.inq = s.inq ∨ ∃ d v, i = .inp d ∧ s.inq = v :: t.inq ∧ t.out = s.out) ∧
    (t.out = s.out ∨ ∃ a v, i = .out a ∧ t.out = s.out ++ [v] ∧ t.inq = s.inq)

/-- Suspension happens at IN only, only on an empty queue, and before anything is done (42_input_output.md R153). -/
def Obligations.OnlyInSuspends : Prop :=
  ∀ (i : Instr) (s t : State), exec i s = .next t → s.st = .running → t.st = .suspendedOnInput →
    (∃ d, i = .inp d) ∧ s.inq = [] ∧ KeepsCells s t ∧ t.pc = s.pc ∧ KeepsRest s t

/-- The table of 60_exceptions.md R235: an instruction raises only the model faults its row names, and on the
parameters it has; none raises `InvalidOpcode` and none refuses. -/
def Obligations.FaultTable : Prop :=
  ∀ (i : Instr) (s : State),
    (∀ f, exec i s = .fault f → mayRaise i f = true) ∧
    (∀ t, exec i s = .next t → t.st = .failed → s.st = .failed) ∧
    ∀ r, exec i s ≠ .refused r

/-- With the reference parameters no step raises `Overflow` or `MemoryExhausted` (41_arithmetic.md R143,
20_memory.md R57; the two parameters' reading is log entry 3). -/
def Obligations.UnboundedNeverOverflows : Prop :=
  ∀ (s : State) (f : Fault), s.params = Params.reference → step s = .fault f →
    (∀ r, f ≠ .overflow r) ∧ ∀ a, f ≠ .memoryExhausted a

/-- An instruction with an undefined mode digit on a parameter it has, or with a destination in immediate mode,
completes on no state (the spec's decisions D4 and D5, log entry 16). -/
def Obligations.IllFormedNeverCompletes : Prop :=
  ∀ (i : Instr) (s t : State), exec i s = .next t → i.wellFormed = true

/-- No instruction can tell the hidden capacity, nor the amount by which it grows (10_state.md R30, 20_memory.md R56,
log entry 4): two states that differ in it alone step alike. -/
def Obligations.CapacityUnobservable : Prop :=
  ∀ s t : State, SameButCap s t → SameOutcomeButCap (step s) (step t)

/-! ### One step -/

/-- A step of a running engine runs the instruction the word at `pc` decodes to, after the fetch, which moves at most
the hidden capacity (40_dispatch_and_parameters.md R111, R125). -/
def Obligations.StepRunsDecodedInstruction : Prop :=
  ∀ (s : State) (i : Instr), s.st = .running → (∀ m, s.params.addrMax = some m → s.pc ≤ m) →
    decode s.word = .ok i → step s = exec i (s.touch s.pc)

/-- `InvalidOpcode` in full (60_exceptions.md R230): the engine fails, `pc`, `rb`, `M`, `out` and `inq` are as they
were, and the invocation returns `(out, InvalidOpcode)`. -/
def Obligations.InvalidOpcodeTaken : Prop :=
  ∀ s : State, s.st = .running → (∀ m, s.params.addrMax = some m → s.pc ≤ m) → invalidWord s.word →
    ∃ t, step s = .next t ∧ t.st = .failed ∧ t.pc = s.pc ∧ KeepsCells s t ∧ KeepsRest s t ∧
      ∀ n, runLoop (n + 1) s = .returned t s.out .invalidOpcode

/-- A fetch above a finite `ADDR_MAX` faults, whatever stands there (20_memory.md R57, R69); a jump there does not
(43_jumps.md R164). -/
def Obligations.FetchAboveMaxFaults : Prop :=
  ∀ (s : State) (m : Nat), s.st = .running → s.params.addrMax = some m → m < s.pc →
    step s = .fault (.memoryExhausted s.pc)

/-- A store is seen by the very next fetch (20_memory.md R67, 40_dispatch_and_parameters.md R123): whichever
instruction stores, the cell it stores to holds the stored value, and where that cell is the next instruction word the
next step runs what the value decodes to, or fails where it decodes to nothing. -/
def Obligations.StoreSeenByNextFetch : Prop :=
  ∀ (s t : State) (i : Instr) (a : Nat) (v : Int), s.mem.wf = true → s.st = .running → exec i s = .next t →
    storedTo i s = some a → storedValue i s = some v →
    t.cell a = v ∧
    (a = t.pc → ∀ j, decode v = .ok j → step t = exec j (t.touch t.pc)) ∧
    (a = t.pc → invalidWord v → ∃ u, step t = .next u ∧ u.st = .failed)

/-- The state machine of `st` (48_run_protocol.md R205): no step leaves a terminal state but a construction, only an
invocation starts the engine, only a construction leads to `Idle`, and only a running engine stops: at an IN on an empty
queue, at a HALT word, or at an invalid word. -/
def Obligations.StateTransitions : Prop :=
  ∀ s t : State, step s = .next t →
    (t.st = .running → s.st ≠ .running →
      (s.st = .idle ∨ s.st = .suspendedOnInput) ∧ s.host.head? = some .run) ∧
    (t.st = .idle → s.st ≠ .idle → s.st ≠ .running ∧ ∃ program, s.host.head? = some (.new program)) ∧
    (t.st = .suspendedOnInput → s.st ≠ .suspendedOnInput → s.st = .running ∧ s.inq = []) ∧
    (t.st = .halted → s.st ≠ .halted → s.st = .running ∧ s.word % 100 = 99) ∧
    (t.st = .failed → s.st ≠ .failed → s.st = .running ∧ invalidWord s.word) ∧
    (s.st = .halted → t.st = .halted ∨ t.st = .idle) ∧
    (s.st = .failed → t.st = .failed ∨ t.st = .idle)

/-- The parameters of 00_scope.md R9 are fixed for the machine: no step changes them (log entry 3). -/
def Obligations.ParametersFixed : Prop :=
  ∀ s t : State, step s = .next t → t.params = s.params

/-- While the engine is running the host makes no move (48_run_protocol.md R223), and while it is not, no instruction
executes: without a host move nothing changes (R210; log entry 6). -/
def Obligations.AgentsTakeTurns : Prop :=
  (∀ s t : State, s.st = .running → step s = .next t → t.host = s.host) ∧
  ∀ s : State, s.st ≠ .running → s.host = [] → step s = .next s

/-- The host cannot write engine state except through `new` (48_run_protocol.md R213): every other move leaves the
cells, the capacity, `pc` and `rb`, and only an invocation moves `st` and empties `out` beside it. -/
def Obligations.HostWritesOnlyByNew : Prop :=
  ∀ s t : State, s.st ≠ .running → step s = .next t → (∀ program, s.host.head? ≠ some (.new program)) →
    KeepsCells s t ∧ t.cap = s.cap ∧ t.pc = s.pc ∧ t.rb = s.rb ∧
      (s.host.head? ≠ some .run → t.st = s.st ∧ t.out = s.out)

/-- The invariant holds at reset. -/
def Obligations.ResetMeetsInvariant : Prop := Inv State.reset

/-- Every step keeps the invariant: the canonical form of memory, the existence of every listed cell, the capacity
within `ADDR_MAX`, and every cell, `rb`, every output and every input representable (10_state.md R30, R38,
41_arithmetic.md R144). -/
def Obligations.StepKeepsInvariant : Prop :=
  ∀ s t : State, Inv s → step s = .next t → Inv t

/-! ### Construction and invocation -/

/-- The state after `new(P)` (10_state.md R36, 48_run_protocol.md R201): the program at 0.., zero elsewhere, `pc` and
`rb` 0, no output, nothing of the old engine; `Idle` is the spec's own reset value (R26, D12). -/
def Obligations.NewBuildsResetState : Prop :=
  ∀ (s : State) (program : List Int) (rest : List HostMove), s.st ≠ .running → s.host = .new program :: rest →
    (∀ v ∈ program, fits s.params v = true) → (∀ m, s.params.addrMax = some m → program.length ≤ m + 1) →
    ∃ t, step s = .next t ∧ (∀ i, t.cell i = program.getD i 0) ∧ t.cap = program.length ∧ t.pc = 0 ∧ t.rb = 0 ∧
      t.st = .idle ∧ t.st.status = none ∧ t.out = [] ∧ t.inq = s.inq ∧ t.params = s.params ∧ t.host = rest

/-- The model's reset is `new` of the empty program (D23), with the reference parameters and, by the model's choice
(log entries 5 and 9), an empty input queue and no host move. -/
def Obligations.ResetIsNewOfNothing : Prop :=
  State.reset = State.fresh Params.reference [] [] [] ∧ (∀ a, State.reset.cell a = 0) ∧ State.reset.pc = 0 ∧
    State.reset.rb = 0 ∧ State.reset.st = .idle ∧ State.reset.out = []

/-- A value outside a finite `CELL_BITS` is refused, never truncated, in a program, in the input queue and in the
queue passed to `run` (the spec's decision D1, log entry 10). -/
def Obligations.UnrepresentableRefused : Prop :=
  ∀ (s : State) (vs : List Int) (v : Int), v ∈ vs → fits s.params v = false →
    ∃ u, u ∈ vs ∧ fits s.params u = false ∧
      (s.st ≠ .running → ∀ rest, s.host = .new vs :: rest → step s = .refused (.unrepresentableProgramCell u)) ∧
      (s.st ≠ .running → ∀ rest, s.host = .queue vs :: rest → step s = .refused (.unrepresentableInput u)) ∧
      (s.st ≠ .running → ∀ n, runCall n vs s = .refused (.unrepresentableInput u))

/-- Entry to `run` (48_run_protocol.md R204): the output is emptied, `Idle` and `SuspendedOnInput` become `Running`,
and `pc`, `rb`, the Memory and the queue are not touched. -/
def Obligations.RunEntry : Prop :=
  ∀ (s : State) (rest : List HostMove), s.st = .idle ∨ s.st = .suspendedOnInput → s.host = .run :: rest →
    ∃ t, step s = .next t ∧ t.st = .running ∧ t.out = [] ∧ t.pc = s.pc ∧ t.rb = s.rb ∧ KeepsCells s t ∧
      t.cap = s.cap ∧ t.inq = s.inq ∧ t.params = s.params ∧ t.host = rest

/-- `run` on a terminal engine returns no output and the same status, and nothing executes (the spec's decision D13,
log entry 14), with any queue that is not refused (log entry 10). -/
def Obligations.TerminalRunIsNoOp : Prop :=
  ∀ (s : State) (n : Nat) (q : List Int), (∀ v ∈ q, fits s.params v = true) →
    (s.st = .halted → runCall n q s = .returned ((s.withInq q).withOut []) [] .ok) ∧
    (s.st = .failed → runCall n q s = .returned ((s.withInq q).withOut []) [] .invalidOpcode)

/-- An invocation returns exactly where the engine is no longer running, with the output of this invocation and the
status of the state it stopped in (48_run_protocol.md R203, R207, 10_state.md R28). -/
def Obligations.RunReturnsStatusOfStop : Prop :=
  ∀ (n : Nat) (q : List Int) (s t : State) (out : List Int) (x : Status), runCall n q s = .returned t out x →
    out = t.out ∧
    ((x = .ok ∧ t.st = .halted) ∨ (x = .needsInput ∧ t.st = .suspendedOnInput) ∨
      (x = .invalidOpcode ∧ t.st = .failed))

/-- The host's filling of its queue (48_run_protocol.md R213, R217; log entry 24): afterwards the queue holds exactly
the given values, and nothing else has changed but that the move is made. -/
def Obligations.QueueMoveFillsQueue : Prop :=
  ∀ (s : State) (vs : List Int) (rest : List HostMove), s.st ≠ .running → s.host = .queue vs :: rest →
    (∀ v ∈ vs, fits s.params v = true) →
    ∃ t, step s = .next t ∧ t.inq = vs ∧ KeepsCells s t ∧ t.cap = s.cap ∧ t.pc = s.pc ∧ t.rb = s.rb ∧ t.st = s.st ∧
      t.out = s.out ∧ t.params = s.params ∧ t.host = rest

/-- An invocation keeps the invariant, whatever queue is passed (48_run_protocol.md R218, log entry 10): with a finite
`CELL_BITS` no cell, output or register is unrepresentable afterwards. -/
def Obligations.RunKeepsInvariant : Prop :=
  ∀ (n : Nat) (q : List Int) (s t : State) (out : List Int) (x : Status), Inv s → runCall n q s = .returned t out x →
    Inv t

/-- No re-entrancy (48_run_protocol.md R223, log entry 23): an engine that is running is not invoked. `run` of it is
refused, a turn of a ring that comes to it is refused, and on the ports `start` makes no difference while it is busy
(R220). -/
def Obligations.RunWhileRunningRefused : Prop :=
  (∀ (n : Nat) (q : List Int) (s : State), s.st = .running → runCall n q s = .refused .runWhileRunning) ∧
  (∀ (n : Nat) (r : EngineRing) (e : State), engineAt r.turn r.engines = some e → e.st = .running →
    ringTurn n r = .refused .runWhileRunning) ∧
  ∀ (i : PortIn) (b : Bool) (p : PortState), p.engine.st = .running → portStep { i with start := b } p = portStep i p

/-- What is left of the queue after an invocation (48_run_protocol.md R208): the queue passed less a front part, and
nothing where the engine needs input. -/
def Obligations.QueueRemainder : Prop :=
  ∀ (n : Nat) (q : List Int) (s t : State) (out : List Int) (x : Status), runCall n q s = .returned t out x →
    (∃ popped, q = popped ++ t.inq) ∧ (x = .needsInput → t.inq = [])

/-- No output is lost: the output an invocation returns continues what a running engine had output
(42_input_output.md R152). -/
def Obligations.OutputOnlyGrows : Prop :=
  ∀ (n : Nat) (s t : State) (out : List Int) (x : Status), s.st = .running → runLoop n s = .returned t out x →
    ∃ vs, out = s.out ++ vs

/-- Resumption (48_run_protocol.md R210): an engine suspended at an IN, invoked with a queue, executes that IN again;
with a value it consumes exactly that one, with an empty queue it suspends again with nothing changed. -/
def Obligations.ResumeRepeatsIn : Prop :=
  ∀ (s : State) (d : Mode), s.mem.wf = true → s.st = .suspendedOnInput →
    (∀ m, s.params.addrMax = some m → s.pc ≤ m) → decode s.word = .ok (.inp d) → destFault s 1 d = none →
    (∀ n, ∃ t, runCall (n + 1) [] s = .returned t [] .needsInput ∧ t.st = .suspendedOnInput ∧ KeepsCells s t ∧
      t.pc = s.pc ∧ t.rb = s.rb ∧ t.inq = []) ∧
    ∀ v rest, ∃ t, step (invoke (s.withInq (v :: rest))) = .next t ∧ t.cell (destAddress s 1 d) = v ∧
      KeepsCellsBut (destAddress s 1 d) s t ∧ t.inq = rest ∧ t.pc = s.pc + 2 ∧ t.st = .running ∧ t.out = []

/-- Fuel is the executor's (48_run_protocol.md R211): a call that returned returns the same with more of it. -/
def Obligations.MoreFuelSameReturn : Prop :=
  ∀ (n k : Nat) (s t : State) (out : List Int) (x : Status), runLoop n s = .returned t out x →
    runLoop (n + k) s = .returned t out x

/-- `peek` (48_run_protocol.md R212; the spec's decision D17, log entry 22): a cell's value while the engine is not
running, 0 at or above the capacity of a state that meets the invariant; refused on a negative address and while the
engine is running. -/
def Obligations.PeekReadsCell : Prop :=
  (∀ (s : State) (a : Nat), s.st ≠ .running →
    peek (a : Int) s = .ok (s.cell a) ∧ (Inv s → s.cap ≤ a → peek (a : Int) s = .ok 0)) ∧
  (∀ (s : State) (a : Int), s.st ≠ .running → a < 0 → peek a s = .error (.peekNegative a)) ∧
  ∀ (s : State) (a : Int), s.st = .running → peek a s = .error .peekWhileRunning

/-! ### Beside the engine -/

/-- A turn of the feedback ring of any length, whichever engine's turn it is (48_run_protocol.md R214, R215; log
entry 20): `InvalidOpcode` aborts the run; `NeedsInput`, and `Ok` of an engine that is not the last, forward the output
to the next engine, around the ring; `Ok` of the last gives the last output value as the result; a model fault, a
refusal and an unfinished invocation are the turn's own outcome. -/
def Obligations.RingForwardsOrAborts : Prop :=
  ∀ (fuel : Nat) (r : EngineRing) (e : State), engineAt r.turn r.engines = some e →
    (∀ t out, runCall fuel e.inq e = .returned t out .invalidOpcode → ringTurn fuel r = .aborted r.turn) ∧
    (∀ t out, runCall fuel e.inq e = .returned t out .needsInput →
      ∃ r', ringTurn fuel r = .next r' ∧ Forwarded r t out r') ∧
    (∀ t out, runCall fuel e.inq e = .returned t out .ok → r.turn + 1 ≠ r.engines.length →
      ∃ r', ringTurn fuel r = .next r' ∧ Forwarded r t out r') ∧
    (∀ t out, runCall fuel e.inq e = .returned t out .ok → r.turn + 1 = r.engines.length →
      ∃ r', ringTurn fuel r = .done out.getLast? r' ∧ Forwarded r t out r') ∧
    (∀ f, runCall fuel e.inq e = .fault f → ringTurn fuel r = .fault f) ∧
    (∀ x, runCall fuel e.inq e = .refused x → ringTurn fuel r = .refused x) ∧
    ∀ t, runCall fuel e.inq e = .unfinished t → ringTurn fuel r = .unfinished

/-- The port binding (48_run_protocol.md R220; the spec's decision D18, log entry 19): busy exactly while the engine
is running, the status 3 never produced, and a status only when not busy. -/
def Obligations.PortsFollowEngine : Prop :=
  ∀ (i : PortIn) (p q : PortState) (o : PortOut), portStep i p = .next (q, o) →
    (o.busy = true ↔ q.engine.st = .running) ∧ o.status ≠ some 3#2 ∧ (o.busy = true → o.status = none)

/-- Words on the data ports (48_run_protocol.md R220, 20_memory.md R59): with a finite `CELL_BITS` a representable
value reads back, and every word of that width is the word of one representable value, the first bit being its sign and
bit `k` from the left its binary digit of weight `2^(CELL_BITS-1-k)`, that is, its two's complement with the most
significant bit first; with an unbounded one every integer reads back (log entry 28). -/
def Obligations.PortWordsRoundTrip : Prop :=
  (∀ (p : Params) (v : Int), p.wf = true → fits p v = true → portValue p (portWord p v) = .ok v) ∧
  ∀ (p : Params) (n : Nat) (b : Bool) (rest : List Bool), p.cellBits = some n → (b :: rest).length = n →
    ∃ v, portValue p (.bits (b :: rest)) = .ok v ∧ fits p v = true ∧ portWord p v = .bits (b :: rest) ∧
      (b = true ↔ v < 0) ∧ ∀ k, k < n → ((b :: rest)[k]? = some true ↔ v / 2 ^ (n - 1 - k) % 2 = 1)

/-- A sampling of the ports keeps the engine's invariant (48_run_protocol.md R218, R220): what the ports can carry is
representable. -/
def Obligations.PortsKeepInvariant : Prop :=
  ∀ (i : PortIn) (p q : PortState) (o : PortOut), Inv p.engine → portStep i p = .next (q, o) → Inv q.engine

/-- A busy engine behind the ports executes one instruction with the value on `in_data` as its queue, or with an empty
one where `in_valid` is 0 (48_run_protocol.md R220; one instruction a sampling is the model's, log entry 19); the pulses
are those of a successful IN and of an OUT, whose value stands on `out_data`. -/
def Obligations.PortsRunEngine : Prop :=
  ∀ (i : PortIn) (p : PortState) (queue : List Int) (t : State), p.engine.st = .running →
    ((i.inValid = false ∧ queue = []) ∨
      ∃ v, i.inValid = true ∧ portValue p.engine.params i.inData = .ok v ∧ queue = [v]) →
    step (p.engine.withInq queue) = .next t →
    ∃ o, portStep i p = .next ({ p with engine := t }, o) ∧
      (o.inPop = true ↔ queue ≠ [] ∧ t.inq = []) ∧
      (o.outValid = true ↔ ∃ v, t.out = p.engine.out ++ [v]) ∧
      (∀ v, t.out = p.engine.out ++ [v] → o.outData = some (portWord p.engine.params v)) ∧
      (o.busy = false → o.peekData = some (portWord p.engine.params (t.cell i.peekAddr)))
end

