-- ==== Sys2Proof/Laws/PerInstr.lean ====
section
/-! SUPPORT. A family of statements about every instruction as syntax: the shape of its word (30_encoding.md R82, R85,
R88). The opcode stands in the last two digits, the word has at most five digits, and the length is 1 to 4 cells. -/

namespace Sys2Proof

/-- A mode's digit is a decimal digit. -/
theorem Mode.digit_lt (m : Mode) : m.digit < 10 := by
  cases m with
  | undefined e => simp only [Mode.digit]; omega
  | _ => decide

/-- A mode is the mode of its digit. -/
@[simp] theorem Mode.ofDigit_digit (m : Mode) : Mode.ofDigit m.digit = m := by
  cases m with
  | undefined e => simp only [Mode.digit, Mode.ofDigit]; congr 1; ext; simp
  | _ => rfl

/-- A word of an opcode and three digits has that opcode and at most five digits. -/
theorem wordOf_shape {op a b c : Nat} (h : op < 100) (ha : a < 10) (hb : b < 10) (hc : c < 10) :
    wordOf op a b c % 100 = op ∧ wordOf op a b c < 100000 := by
  unfold wordOf
  omega

/-- An instruction is 1 to 4 cells long. -/
theorem Instr.cells_range (i : Instr) : 1 ≤ i.cells ∧ i.cells ≤ 4 := by
  cases i <;> simp [Instr.cells]

end Sys2Proof

namespace Sys2Proof.Laws.WordShape

open Sys2Proof

/-- The shape of an instruction's word and its length. -/
def Statement (i : Instr) : Prop :=
  encode i % 100 = i.opcode ∧ encode i < 100000 ∧ 1 ≤ i.cells ∧ i.cells ≤ 4

theorem add (a b dst : Mode) : Statement (.add a b dst) :=
  have h := wordOf_shape (op := 1) (by decide) a.digit_lt b.digit_lt dst.digit_lt
  ⟨h.1, h.2, Instr.cells_range _⟩

theorem mul (a b dst : Mode) : Statement (.mul a b dst) :=
  have h := wordOf_shape (op := 2) (by decide) a.digit_lt b.digit_lt dst.digit_lt
  ⟨h.1, h.2, Instr.cells_range _⟩

theorem inp (dst : Mode) : Statement (.inp dst) :=
  have h := wordOf_shape (op := 3) (b := 0) (c := 0) (by decide) dst.digit_lt (by decide) (by decide)
  ⟨h.1, h.2, Instr.cells_range _⟩

theorem out (a : Mode) : Statement (.out a) :=
  have h := wordOf_shape (op := 4) (b := 0) (c := 0) (by decide) a.digit_lt (by decide) (by decide)
  ⟨h.1, h.2, Instr.cells_range _⟩

theorem jnz (a target : Mode) : Statement (.jnz a target) :=
  have h := wordOf_shape (op := 5) (c := 0) (by decide) a.digit_lt target.digit_lt (by decide)
  ⟨h.1, h.2, Instr.cells_range _⟩

theorem jz (a target : Mode) : Statement (.jz a target) :=
  have h := wordOf_shape (op := 6) (c := 0) (by decide) a.digit_lt target.digit_lt (by decide)
  ⟨h.1, h.2, Instr.cells_range _⟩

theorem lt (a b dst : Mode) : Statement (.lt a b dst) :=
  have h := wordOf_shape (op := 7) (by decide) a.digit_lt b.digit_lt dst.digit_lt
  ⟨h.1, h.2, Instr.cells_range _⟩

theorem eq (a b dst : Mode) : Statement (.eq a b dst) :=
  have h := wordOf_shape (op := 8) (by decide) a.digit_lt b.digit_lt dst.digit_lt
  ⟨h.1, h.2, Instr.cells_range _⟩

theorem arb (a : Mode) : Statement (.arb a) :=
  have h := wordOf_shape (op := 9) (b := 0) (c := 0) (by decide) a.digit_lt (by decide) (by decide)
  ⟨h.1, h.2, Instr.cells_range _⟩

theorem halt : Statement .halt := ⟨by decide, by decide, by decide, by decide⟩

end Sys2Proof.Laws.WordShape
end

