-- ==== Sys2Proof/Laws/Decode.lean ====
section
/-! SUPPORT. Decoding by decimal digits: what the digits of a composed word are, and decoding on the naturals. -/

namespace Sys2Proof

/-- A word composed of an opcode, three mode digits and anything above has that opcode and those modes (30_encoding.md
R80, R85, R91). -/
theorem wordOf_digits {op a b c : Nat} (h : op < 100) (ha : a < 10) (hb : b < 10) (hc : c < 10) (high : Nat) :
    opcodeOf (wordOf op a b c + 100000 * high) = op ∧
    modeDigit (wordOf op a b c + 100000 * high) 1 = a ∧
    modeDigit (wordOf op a b c + 100000 * high) 2 = b ∧
    modeDigit (wordOf op a b c + 100000 * high) 3 = c := by
  unfold opcodeOf modeDigit wordOf
  refine ⟨by omega, ?_, ?_, ?_⟩ <;> norm_num <;> omega

/-- A non-negative word is decoded by its digits. -/
theorem decode_natCast (w : Nat) :
    decode (w : Int) = (instrOf w).elim (.error (.undefinedOpcode w)) .ok := by
  have h : ¬((w : Int) < 0) := by omega
  simp only [decode, h, if_false, Int.toNat_natCast]
  cases instrOf w <;> rfl

/-- A negative word is no instruction (46_halt_and_invalid.md R188). -/
theorem decode_negative {w : Int} (h : w < 0) : decode w = .error (.negativeWord w) := by
  simp [decode, h]

/-- A word that is an instruction is not negative, and its digits give the instruction. -/
theorem decode_ok {w : Int} {i : Instr} : decode w = .ok i ↔ 0 ≤ w ∧ instrOf w.toNat = some i := by
  by_cases h : w < 0
  · simp only [decode_negative h]
    exact ⟨fun e => (nomatch e), fun e => absurd e.1 (by omega)⟩
  · obtain ⟨n, rfl⟩ := Int.eq_ofNat_of_zero_le (by omega : 0 ≤ w)
    rw [decode_natCast, Int.toNat_natCast]
    cases instrOf n <;> simp

end Sys2Proof
end

