-- ==== Sys2Proof/Laws/State.lean ====
section
/-! SUPPORT. One lemma per field per named update of the state, each true by `rfl`, so that no proof unfolds a record
update; and what an update does to the cells and the instruction word. -/

namespace Sys2Proof.Machine

section Withmem
variable (s : State) (m : Memory)
@[simp] theorem State.withMem_params : (s.withMem m).params = s.params := rfl
@[simp] theorem State.withMem_mem : (s.withMem m).mem = m := rfl
@[simp] theorem State.withMem_cap : (s.withMem m).cap = s.cap := rfl
@[simp] theorem State.withMem_pc : (s.withMem m).pc = s.pc := rfl
@[simp] theorem State.withMem_rb : (s.withMem m).rb = s.rb := rfl
@[simp] theorem State.withMem_st : (s.withMem m).st = s.st := rfl
@[simp] theorem State.withMem_out : (s.withMem m).out = s.out := rfl
@[simp] theorem State.withMem_inq : (s.withMem m).inq = s.inq := rfl
@[simp] theorem State.withMem_host : (s.withMem m).host = s.host := rfl
@[simp] theorem State.withMem_cell (b : Nat) : (s.withMem m).cell b = m.get b := rfl
end Withmem

section Withcap
variable (s : State) (c : Nat)
@[simp] theorem State.withCap_params : (s.withCap c).params = s.params := rfl
@[simp] theorem State.withCap_mem : (s.withCap c).mem = s.mem := rfl
@[simp] theorem State.withCap_cap : (s.withCap c).cap = c := rfl
@[simp] theorem State.withCap_pc : (s.withCap c).pc = s.pc := rfl
@[simp] theorem State.withCap_rb : (s.withCap c).rb = s.rb := rfl
@[simp] theorem State.withCap_st : (s.withCap c).st = s.st := rfl
@[simp] theorem State.withCap_out : (s.withCap c).out = s.out := rfl
@[simp] theorem State.withCap_inq : (s.withCap c).inq = s.inq := rfl
@[simp] theorem State.withCap_host : (s.withCap c).host = s.host := rfl
@[simp] theorem State.withCap_cell (b : Nat) : (s.withCap c).cell b = s.cell b := rfl
end Withcap

section Withpc
variable (s : State) (a : Nat)
@[simp] theorem State.withPc_params : (s.withPc a).params = s.params := rfl
@[simp] theorem State.withPc_mem : (s.withPc a).mem = s.mem := rfl
@[simp] theorem State.withPc_cap : (s.withPc a).cap = s.cap := rfl
@[simp] theorem State.withPc_pc : (s.withPc a).pc = a := rfl
@[simp] theorem State.withPc_rb : (s.withPc a).rb = s.rb := rfl
@[simp] theorem State.withPc_st : (s.withPc a).st = s.st := rfl
@[simp] theorem State.withPc_out : (s.withPc a).out = s.out := rfl
@[simp] theorem State.withPc_inq : (s.withPc a).inq = s.inq := rfl
@[simp] theorem State.withPc_host : (s.withPc a).host = s.host := rfl
@[simp] theorem State.withPc_cell (b : Nat) : (s.withPc a).cell b = s.cell b := rfl
end Withpc

section Withrb
variable (s : State) (v : Int)
@[simp] theorem State.withRb_params : (s.withRb v).params = s.params := rfl
@[simp] theorem State.withRb_mem : (s.withRb v).mem = s.mem := rfl
@[simp] theorem State.withRb_cap : (s.withRb v).cap = s.cap := rfl
@[simp] theorem State.withRb_pc : (s.withRb v).pc = s.pc := rfl
@[simp] theorem State.withRb_rb : (s.withRb v).rb = v := rfl
@[simp] theorem State.withRb_st : (s.withRb v).st = s.st := rfl
@[simp] theorem State.withRb_out : (s.withRb v).out = s.out := rfl
@[simp] theorem State.withRb_inq : (s.withRb v).inq = s.inq := rfl
@[simp] theorem State.withRb_host : (s.withRb v).host = s.host := rfl
@[simp] theorem State.withRb_cell (b : Nat) : (s.withRb v).cell b = s.cell b := rfl
end Withrb

section Withst
variable (s : State) (e : ExecState)
@[simp] theorem State.withSt_params : (s.withSt e).params = s.params := rfl
@[simp] theorem State.withSt_mem : (s.withSt e).mem = s.mem := rfl
@[simp] theorem State.withSt_cap : (s.withSt e).cap = s.cap := rfl
@[simp] theorem State.withSt_pc : (s.withSt e).pc = s.pc := rfl
@[simp] theorem State.withSt_rb : (s.withSt e).rb = s.rb := rfl
@[simp] theorem State.withSt_st : (s.withSt e).st = e := rfl
@[simp] theorem State.withSt_out : (s.withSt e).out = s.out := rfl
@[simp] theorem State.withSt_inq : (s.withSt e).inq = s.inq := rfl
@[simp] theorem State.withSt_host : (s.withSt e).host = s.host := rfl
@[simp] theorem State.withSt_cell (b : Nat) : (s.withSt e).cell b = s.cell b := rfl
end Withst

section Without
variable (s : State) (vs : List Int)
@[simp] theorem State.withOut_params : (s.withOut vs).params = s.params := rfl
@[simp] theorem State.withOut_mem : (s.withOut vs).mem = s.mem := rfl
@[simp] theorem State.withOut_cap : (s.withOut vs).cap = s.cap := rfl
@[simp] theorem State.withOut_pc : (s.withOut vs).pc = s.pc := rfl
@[simp] theorem State.withOut_rb : (s.withOut vs).rb = s.rb := rfl
@[simp] theorem State.withOut_st : (s.withOut vs).st = s.st := rfl
@[simp] theorem State.withOut_out : (s.withOut vs).out = vs := rfl
@[simp] theorem State.withOut_inq : (s.withOut vs).inq = s.inq := rfl
@[simp] theorem State.withOut_host : (s.withOut vs).host = s.host := rfl
@[simp] theorem State.withOut_cell (b : Nat) : (s.withOut vs).cell b = s.cell b := rfl
end Without

section Withinq
variable (s : State) (vs : List Int)
@[simp] theorem State.withInq_params : (s.withInq vs).params = s.params := rfl
@[simp] theorem State.withInq_mem : (s.withInq vs).mem = s.mem := rfl
@[simp] theorem State.withInq_cap : (s.withInq vs).cap = s.cap := rfl
@[simp] theorem State.withInq_pc : (s.withInq vs).pc = s.pc := rfl
@[simp] theorem State.withInq_rb : (s.withInq vs).rb = s.rb := rfl
@[simp] theorem State.withInq_st : (s.withInq vs).st = s.st := rfl
@[simp] theorem State.withInq_out : (s.withInq vs).out = s.out := rfl
@[simp] theorem State.withInq_inq : (s.withInq vs).inq = vs := rfl
@[simp] theorem State.withInq_host : (s.withInq vs).host = s.host := rfl
@[simp] theorem State.withInq_cell (b : Nat) : (s.withInq vs).cell b = s.cell b := rfl
end Withinq

section Withhost
variable (s : State) (ms : List HostMove)
@[simp] theorem State.withHost_params : (s.withHost ms).params = s.params := rfl
@[simp] theorem State.withHost_mem : (s.withHost ms).mem = s.mem := rfl
@[simp] theorem State.withHost_cap : (s.withHost ms).cap = s.cap := rfl
@[simp] theorem State.withHost_pc : (s.withHost ms).pc = s.pc := rfl
@[simp] theorem State.withHost_rb : (s.withHost ms).rb = s.rb := rfl
@[simp] theorem State.withHost_st : (s.withHost ms).st = s.st := rfl
@[simp] theorem State.withHost_out : (s.withHost ms).out = s.out := rfl
@[simp] theorem State.withHost_inq : (s.withHost ms).inq = s.inq := rfl
@[simp] theorem State.withHost_host : (s.withHost ms).host = ms := rfl
@[simp] theorem State.withHost_cell (b : Nat) : (s.withHost ms).cell b = s.cell b := rfl
end Withhost

section Push
variable (s : State) (v : Int)
@[simp] theorem State.push_params : (s.push v).params = s.params := rfl
@[simp] theorem State.push_mem : (s.push v).mem = s.mem := rfl
@[simp] theorem State.push_cap : (s.push v).cap = s.cap := rfl
@[simp] theorem State.push_pc : (s.push v).pc = s.pc := rfl
@[simp] theorem State.push_rb : (s.push v).rb = s.rb := rfl
@[simp] theorem State.push_st : (s.push v).st = s.st := rfl
@[simp] theorem State.push_out : (s.push v).out = s.out ++ [v] := rfl
@[simp] theorem State.push_inq : (s.push v).inq = s.inq := rfl
@[simp] theorem State.push_host : (s.push v).host = s.host := rfl
@[simp] theorem State.push_cell (b : Nat) : (s.push v).cell b = s.cell b := rfl
end Push

section Advance
variable (s : State) (n : Nat)
@[simp] theorem State.advance_params : (s.advance n).params = s.params := rfl
@[simp] theorem State.advance_mem : (s.advance n).mem = s.mem := rfl
@[simp] theorem State.advance_cap : (s.advance n).cap = s.cap := rfl
@[simp] theorem State.advance_pc : (s.advance n).pc = s.pc + n := rfl
@[simp] theorem State.advance_rb : (s.advance n).rb = s.rb := rfl
@[simp] theorem State.advance_st : (s.advance n).st = s.st := rfl
@[simp] theorem State.advance_out : (s.advance n).out = s.out := rfl
@[simp] theorem State.advance_inq : (s.advance n).inq = s.inq := rfl
@[simp] theorem State.advance_host : (s.advance n).host = s.host := rfl
@[simp] theorem State.advance_cell (b : Nat) : (s.advance n).cell b = s.cell b := rfl
end Advance

section Touch
variable (s : State) (a : Nat)
@[simp] theorem State.touch_params : (s.touch a).params = s.params := rfl
@[simp] theorem State.touch_mem : (s.touch a).mem = s.mem := rfl
@[simp] theorem State.touch_cap : (s.touch a).cap = capAfter s.params s.cap a := rfl
@[simp] theorem State.touch_pc : (s.touch a).pc = s.pc := rfl
@[simp] theorem State.touch_rb : (s.touch a).rb = s.rb := rfl
@[simp] theorem State.touch_st : (s.touch a).st = s.st := rfl
@[simp] theorem State.touch_out : (s.touch a).out = s.out := rfl
@[simp] theorem State.touch_inq : (s.touch a).inq = s.inq := rfl
@[simp] theorem State.touch_host : (s.touch a).host = s.host := rfl
@[simp] theorem State.touch_cell (b : Nat) : (s.touch a).cell b = s.cell b := rfl
end Touch

/-- A state is its fields. -/
theorem State.ext_fields {s t : State} (h1 : s.params = t.params) (h2 : s.mem = t.mem) (h3 : s.cap = t.cap)
    (h4 : s.pc = t.pc) (h5 : s.rb = t.rb) (h6 : s.st = t.st) (h7 : s.out = t.out) (h8 : s.inq = t.inq)
    (h9 : s.host = t.host) : s = t := by
  cases s; cases t; simp_all

@[simp] theorem State.withCap_withCap (s : State) (c d : Nat) : (s.withCap c).withCap d = s.withCap d := rfl

@[simp] theorem State.withCap_self (s : State) : s.withCap s.cap = s := rfl

@[simp] theorem State.withCap_word (s : State) (c : Nat) : (s.withCap c).word = s.word := rfl

@[simp] theorem State.word_eq (s : State) : s.cell s.pc = s.word := rfl

/-- A reference moves the capacity and nothing else (20_memory.md R53, R61). -/
theorem State.touch_eq (s : State) (a : Nat) : s.touch a = s.withCap (capAfter s.params s.cap a) := rfl

end Sys2Proof.Machine
end

