-- ==== Sys2Proof/Laws/Memory.lean ====
section
/-! SUPPORT. Laws of the list of cells: a read after a write, the canonical form, the loaded program. -/

namespace Sys2Proof.Machine

/-- Nothing listed at or above `low` or later means nothing listed at a lower address. -/
theorem Memory.get_below {m : Memory} : ∀ {low a : Nat}, Memory.wfFrom low m = true → a < low → m.get a = 0 := by
  induction m with
  | nil => intros; rfl
  | cons c rest ih =>
    obtain ⟨b, v⟩ := c
    intro low a h ha
    simp only [Memory.wfFrom, Bool.and_eq_true, decide_eq_true_eq] at h
    have hne : a ≠ b := by omega
    simp only [Memory.get, hne, if_false]
    exact ih h.2 (by omega)

theorem Memory.wfFrom_mono {m : Memory} {low low' : Nat} (h : Memory.wfFrom low m = true) (hl : low' ≤ low) :
    Memory.wfFrom low' m = true := by
  cases m with
  | nil => rfl
  | cons c rest =>
    simp only [Memory.wfFrom, Bool.and_eq_true, decide_eq_true_eq] at h ⊢
    exact ⟨⟨by omega, h.1.2⟩, h.2⟩

theorem Memory.push_wfFrom {low a : Nat} {v : Int} {rest : Memory} (hl : low ≤ a)
    (h : Memory.wfFrom (a + 1) rest = true) : Memory.wfFrom low (Memory.push a v rest) = true := by
  unfold Memory.push
  split
  · exact Memory.wfFrom_mono h (by omega)
  · rename_i hv
    simp [Memory.wfFrom, hl, hv, h]

/-- A write keeps the canonical form. -/
theorem Memory.set_wfFrom {m : Memory} : ∀ {low a : Nat} {v : Int}, Memory.wfFrom low m = true → low ≤ a →
    Memory.wfFrom low (m.set a v) = true := by
  induction m with
  | nil => intro low a v _ hl; exact Memory.push_wfFrom hl rfl
  | cons c rest ih =>
    obtain ⟨b, u⟩ := c
    intro low a v h hl
    simp only [Memory.wfFrom, Bool.and_eq_true, decide_eq_true_eq] at h
    simp only [Memory.set]
    split
    · exact Memory.push_wfFrom hl (by simp [Memory.wfFrom, h.1.2, h.2]; omega)
    · split
      · rename_i hab; subst hab; exact Memory.push_wfFrom hl h.2
      · simp only [Memory.wfFrom, Bool.and_eq_true, decide_eq_true_eq]
        exact ⟨h.1, ih h.2 (by omega)⟩

/-- A write keeps the canonical form. -/
theorem Memory.set_wf {m : Memory} (h : m.wf = true) (a : Nat) (v : Int) : Memory.wf (m.set a v) = true :=
  Memory.set_wfFrom h (Nat.zero_le a)

/-- Loading a program gives the canonical form. -/
theorem Memory.load_wfFrom (program : List Int) : ∀ base : Nat, Memory.wfFrom base (Memory.load base program) = true := by
  induction program with
  | nil => intro; rfl
  | cons v rest ih => intro base; exact Memory.push_wfFrom (Nat.le_refl _) (ih (base + 1))

theorem Memory.load_wf (program : List Int) : Memory.wf (Memory.load 0 program) = true :=
  Memory.load_wfFrom program 0

theorem Memory.push_get_same {a : Nat} {v : Int} {rest : Memory} (h : Memory.wfFrom (a + 1) rest = true) :
    (Memory.push a v rest).get a = v := by
  unfold Memory.push
  split
  · rename_i hv; rw [hv]; exact Memory.get_below h (by omega)
  · simp [Memory.get]

theorem Memory.push_get_other {a b : Nat} {v : Int} {rest : Memory} (hb : b ≠ a) :
    (Memory.push a v rest).get b = rest.get b := by
  unfold Memory.push
  split
  · rfl
  · simp [Memory.get, hb]

/-- A read after a write to the same address gives the value written. -/
theorem Memory.get_set_same {m : Memory} : ∀ {low : Nat}, Memory.wfFrom low m = true → ∀ (a : Nat) (v : Int),
    (m.set a v).get a = v := by
  induction m with
  | nil => intro _ _ a v; exact Memory.push_get_same rfl
  | cons c rest ih =>
    obtain ⟨b, u⟩ := c
    intro low h a v
    simp only [Memory.wfFrom, Bool.and_eq_true, decide_eq_true_eq] at h
    simp only [Memory.set]
    split
    · exact Memory.push_get_same (by simp [Memory.wfFrom, h.1.2, h.2]; omega)
    · split
      · rename_i hab; subst hab; exact Memory.push_get_same h.2
      · rename_i hab; simp only [Memory.get, hab, if_false]; exact ih h.2 a v

/-- A write leaves every other address alone. -/
theorem Memory.get_set_other {m : Memory} {a b : Nat} (v : Int) (hb : b ≠ a) : (m.set a v).get b = m.get b := by
  induction m with
  | nil => simp [Memory.set, Memory.push_get_other hb]
  | cons c rest ih =>
    obtain ⟨x, u⟩ := c
    simp only [Memory.set]
    split
    · exact Memory.push_get_other hb
    · split
      · rename_i hax
        subst hax
        rw [Memory.push_get_other hb]
        simp [Memory.get, hb]
      · simp only [Memory.get, ih]

/-- Every entry of a memory after a write is an old one or the written one. -/
theorem Memory.mem_set {m : Memory} {a : Nat} {v : Int} {c : Nat × Int} (h : c ∈ m.set a v) :
    c ∈ m ∨ c = (a, v) := by
  induction m with
  | nil =>
    simp only [Memory.set, Memory.push] at h
    split at h <;> simp_all
  | cons x rest ih =>
    obtain ⟨b, u⟩ := x
    simp only [Memory.set, Memory.push] at h
    split at h
    · split at h
      · exact .inl h
      · simpa [or_comm] using h
    · split at h
      · split at h
        · exact .inl (List.mem_cons_of_mem _ h)
        · rcases List.mem_cons.1 h with h | h
          · exact .inr h
          · exact .inl (List.mem_cons_of_mem _ h)
      · rcases List.mem_cons.1 h with h | h
        · exact .inl (h ▸ List.mem_cons_self)
        · exact (ih h).imp_left (List.mem_cons_of_mem _)

/-- A cell reads 0 or is listed. -/
theorem Memory.get_cases (m : Memory) (a : Nat) : m.get a = 0 ∨ (a, m.get a) ∈ m := by
  induction m with
  | nil => exact .inl rfl
  | cons x rest ih =>
    obtain ⟨b, u⟩ := x
    simp only [Memory.get]
    split
    · rename_i h; subst h; exact .inr List.mem_cons_self
    · exact ih.imp_right (List.mem_cons_of_mem _)

/-- The entries of a loaded program lie in its range and hold its values. -/
theorem Memory.mem_load {program : List Int} : ∀ {base : Nat} {c : Nat × Int}, c ∈ Memory.load base program →
    base ≤ c.1 ∧ c.1 < base + program.length ∧ c.2 ∈ program := by
  induction program with
  | nil => intro _ _ h; cases h
  | cons v rest ih =>
    intro base c h
    simp only [Memory.load, Memory.push] at h
    simp only [List.length_cons, List.mem_cons]
    split at h
    · have := ih h; exact ⟨by omega, by omega, .inr this.2.2⟩
    · rcases List.mem_cons.1 h with h | h
      · subst h; exact ⟨Nat.le_refl _, by simp, .inl rfl⟩
      · have := ih h; exact ⟨by omega, by omega, .inr this.2.2⟩

/-- A loaded program's cells read as the program, and 0 beyond it (10_state.md R36). -/
theorem Memory.get_load (program : List Int) : ∀ base i : Nat,
    (Memory.load base program).get (base + i) = program.getD i 0 := by
  induction program with
  | nil => intro base i; simp [Memory.load, Memory.get]
  | cons v rest ih =>
    intro base i
    cases i with
    | zero => simpa [Memory.load] using Memory.push_get_same (Memory.load_wfFrom rest (base + 1))
    | succ n =>
      have h : base + (n + 1) = base + 1 + n := by omega
      rw [Memory.load, Memory.push_get_other (by omega), h, ih]
      simp

end Sys2Proof.Machine
end

