-- ==== Sys2Proof/Laws/Operands.lean ====
section
/-! SUPPORT. What the shared operations do, said once: references and the capacity, the Parameter Decoder, and the
three instruction shapes. Every lemma speaks of the state in which the instruction starts. -/

namespace Sys2Proof.Machine

/-- A capacity that a reference can leave: it has not shrunk and it stays within `ADDR_MAX`. -/
def CapMove (s : State) (c : Nat) : Prop :=
  s.cap ≤ c ∧ ∀ n, s.params.addrMax = some n → s.cap ≤ n + 1 → c ≤ n + 1

theorem CapMove.refl (s : State) : CapMove s s.cap := ⟨Nat.le_refl _, fun _ _ h => h⟩

theorem CapMove.trans {s : State} {c d : Nat} (h1 : CapMove s c) (h2 : CapMove (s.withCap c) d) : CapMove s d :=
  ⟨Nat.le_trans h1.1 h2.1, fun n hn hs => h2.2 n hn (h1.2 n hn hs)⟩

/-- An address that raises no fault is a natural number within `ADDR_MAX`. -/
theorem addressFault_none {p : Params} {a : Int} :
    addressFault p a = none ↔ 0 ≤ a ∧ ∀ m, p.addrMax = some m → a ≤ m := by
  unfold addressFault aboveMax
  cases h : p.addrMax with
  | none => by_cases h0 : a < 0 <;> simp [h0]; omega
  | some m =>
    by_cases h0 : a < 0
    · simp [h0]
    · by_cases h1 : (m : Int) < a
      · simp [h0, h1]
      · simp [h0, h1]; omega

theorem addressFault_cases {p : Params} {a : Int} {f : Fault} (h : addressFault p a = some f) :
    (a < 0 ∧ f = .negativeAddress a) ∨ (0 ≤ a ∧ f = .memoryExhausted a ∧ ∃ m, p.addrMax = some m ∧ (m : Int) < a) := by
  unfold addressFault aboveMax at h
  cases hm : p.addrMax with
  | none =>
    simp only [hm] at h
    split at h
    · exact .inl ⟨‹_›, by simpa using h.symm⟩
    · simp at h
  | some m =>
    simp only [hm] at h
    split at h
    · exact .inl ⟨‹_›, by simpa using h.symm⟩
    · split at h
      · rename_i h0 h1
        exact .inr ⟨by omega, by simpa using h.symm, m, rfl, by simpa using h1⟩
      · simp at h

/-- A reference that raises no fault leaves a capacity above its address (20_memory.md R53, R56). -/
theorem lt_capAfter {p : Params} {cap a : Nat} (h : addressFault p (a : Int) = none) : a < capAfter p cap a := by
  have h := (addressFault_none.1 h).2
  unfold capAfter grow
  split
  · cases hm : p.addrMax with
    | none => simp only; omega
    | some m => have := h m hm; simp only; omega
  · omega

/-- A reference never shrinks the capacity and keeps it within `ADDR_MAX`. -/
theorem capMove_touch {s : State} {a : Nat} (h : addressFault s.params (a : Int) = none) :
    CapMove s (capAfter s.params s.cap a) := by
  have hlt := lt_capAfter (cap := s.cap) h
  refine ⟨?_, ?_⟩
  · unfold capAfter at hlt ⊢
    split <;> rename_i hc
    · simp only [hc, if_true] at hlt; omega
    · exact Nat.le_refl _
  · intro n hn hs
    unfold capAfter grow
    simp only [hn]
    split
    · omega
    · exact hs

theorem memRead_fault {a : Int} {s : State} {f : Fault} (h : addressFault s.params a = some f) :
    memRead a s = .error f := by
  simp [memRead, h]

/-- A read that raises no fault answers the cell and moves only the capacity (R54). -/
theorem memRead_value {a : Int} {s : State} (h : addressFault s.params a = none) :
    ∃ c, CapMove s c ∧ a.toNat < c ∧ memRead a s = .ok (s.cell a.toNat, s.withCap c) := by
  have h0 := (addressFault_none.1 h).1
  have hn : addressFault s.params (a.toNat : Int) = none := by rwa [Int.toNat_of_nonneg h0]
  exact ⟨_, capMove_touch hn, lt_capAfter hn, by simp [memRead, h, State.touch_eq]⟩

theorem memWrite_fault {a v : Int} {s : State} {f : Fault} (h : addressFault s.params a = some f) :
    memWrite a v s = .error f := by
  simp [memWrite, h]

/-- A write that raises no fault sets one cell and moves the capacity above it (R55). -/
theorem memWrite_value {a v : Int} {s : State} (h : addressFault s.params a = none) :
    ∃ c, CapMove s c ∧ a.toNat < c ∧ memWrite a v s = .ok ((s.withCap c).withMem (s.mem.set a.toNat v)) := by
  have h0 := (addressFault_none.1 h).1
  have hn : addressFault s.params (a.toNat : Int) = none := by rwa [Int.toNat_of_nonneg h0]
  exact ⟨_, capMove_touch hn, lt_capAfter hn, by simp [memWrite, h, State.touch_eq]⟩

/-! ### The capacity plays no part in what a parameter is worth -/

@[simp] theorem paramCell_withCap (s : State) (c k : Nat) : paramCell (s.withCap c) k = paramCell s k := rfl

@[simp] theorem paramAddress_withCap (s : State) (c k : Nat) (m : Mode) :
    paramAddress (s.withCap c) k m = paramAddress s k m := rfl

@[simp] theorem sourceValue_withCap (s : State) (c k : Nat) (m : Mode) :
    sourceValue (s.withCap c) k m = sourceValue s k m := rfl

@[simp] theorem destAddress_withCap (s : State) (c k : Nat) (m : Mode) :
    destAddress (s.withCap c) k m = destAddress s k m := rfl

@[simp] theorem sourceFault_withCap (s : State) (c k : Nat) (m : Mode) :
    sourceFault (s.withCap c) k m = sourceFault s k m := rfl

@[simp] theorem destFault_withCap (s : State) (c k : Nat) (m : Mode) :
    destFault (s.withCap c) k m = destFault s k m := rfl

@[simp] theorem overflowFault_withCap (s : State) (c : Nat) (r : Int) :
    overflowFault (s.withCap c) r = overflowFault s r := rfl

/-! ### The Parameter Decoder -/

/-- `raw(k)` (40_dispatch_and_parameters.md R118). -/
theorem raw_cases (s : State) (k : Nat) :
    (∃ f, addressFault s.params ((s.pc : Int) + (k : Int)) = some f ∧ raw k s = .error f) ∨
    (addressFault s.params ((s.pc : Int) + (k : Int)) = none ∧
      ∃ c, CapMove s c ∧ raw k s = .ok (paramCell s k, s.withCap c)) := by
  cases h : addressFault s.params ((s.pc : Int) + (k : Int)) with
  | some f => exact .inl ⟨f, rfl, memRead_fault h⟩
  | none =>
    obtain ⟨c, hc, -, e⟩ := memRead_value h
    have hk : ((s.pc : Int) + (k : Int)).toNat = s.pc + k := by omega
    exact .inr ⟨rfl, c, hc, by rw [hk] at e; simpa [raw, paramCell] using e⟩

/-- `val(w, k)` raises the fault read off the starting state (R121, R236). -/
theorem val_fault {s : State} {k : Nat} {m : Mode} {f : Fault} (h : sourceFault s k m = some f) :
    val k m s = .error f := by
  rcases raw_cases s k with ⟨g, hg, hr⟩ | ⟨hn, c, -, hr⟩
  · simp only [sourceFault, hg] at h
    simp only [val, hr]
    exact congrArg _ (Option.some.inj h)
  · simp only [sourceFault, hn] at h
    cases m with
    | immediate => simp at h
    | undefined e => simpa [val, hr, effectiveAddress] using h
    | position => simpa [val, hr, effectiveAddress] using memRead_fault (s := s.withCap c) h
    | relative => simpa [val, hr, effectiveAddress] using memRead_fault (s := s.withCap c) h

/-- `val(w, k)` answers the value read off the starting state and moves only the capacity (R121). -/
theorem val_value {s : State} {k : Nat} {m : Mode} (h : sourceFault s k m = none) :
    ∃ c, CapMove s c ∧ val k m s = .ok (sourceValue s k m, s.withCap c) := by
  rcases raw_cases s k with ⟨g, hg, -⟩ | ⟨hn, c, hc, hr⟩
  · simp [sourceFault, hg] at h
  · simp only [sourceFault, hn] at h
    cases m with
    | immediate => exact ⟨c, hc, by simp [val, hr, effectiveAddress, sourceValue, paramAddress]⟩
    | undefined e => simp at h
    | position =>
      obtain ⟨d, hd, -, e⟩ := memRead_value (s := s.withCap c) h
      exact ⟨d, hc.trans hd, by simpa [val, hr, effectiveAddress, sourceValue, paramAddress] using e⟩
    | relative =>
      obtain ⟨d, hd, -, e⟩ := memRead_value (s := s.withCap c) h
      exact ⟨d, hc.trans hd, by simpa [val, hr, effectiveAddress, sourceValue, paramAddress] using e⟩

/-- `addr(w, k)` raises the fault read off the starting state (R120, R236). -/
theorem addr_fault {s : State} {k : Nat} {m : Mode} {f : Fault} (h : destFault s k m = some f) :
    addr k m s = .error f := by
  rcases raw_cases s k with ⟨g, hg, hr⟩ | ⟨hn, c, -, hr⟩
  · simp only [destFault, hg] at h
    simp only [addr, hr]
    exact congrArg _ (Option.some.inj h)
  · simp only [destFault, hn] at h
    cases m <;> simp_all [addr, effectiveAddress]

/-- `addr(w, k)` answers the address read off the starting state, which a write can use (R120). -/
theorem addr_value {s : State} {k : Nat} {m : Mode} (h : destFault s k m = none) :
    addressFault s.params (destAddress s k m : Int) = none ∧
    ∃ c, CapMove s c ∧ addr k m s = .ok ((destAddress s k m : Int), s.withCap c) := by
  rcases raw_cases s k with ⟨g, hg, -⟩ | ⟨hn, c, hc, hr⟩
  · simp [destFault, hg] at h
  · simp only [destFault, hn] at h
    cases m with
    | immediate => simp at h
    | undefined e => simp at h
    | position =>
      have h0 := (addressFault_none.1 h).1
      have hd : (destAddress s k .position : Int) = paramCell s k := by
        simp [destAddress, paramAddress, effectiveAddress, h0]
      exact ⟨hd ▸ h, c, hc, by simp [addr, hr, effectiveAddress, h, hd]⟩
    | relative =>
      have h0 := (addressFault_none.1 h).1
      have hd : (destAddress s k .relative : Int) = s.rb + paramCell s k := by
        simp [destAddress, paramAddress, effectiveAddress, h0]
      exact ⟨hd ▸ h, c, hc, by simp [addr, hr, effectiveAddress, h, hd]⟩

/-! ### The instruction shapes -/

/-- The fault of two sources, in parameter order. -/
theorem twoSources_fault {s : State} {a b : Mode} {f : Fault}
    (h : firstFault [sourceFault s 1 a, sourceFault s 2 b] = some f) : twoSources a b s = .error f := by
  cases h1 : sourceFault s 1 a with
  | some g =>
    simp only [h1, firstFault, Option.some.injEq] at h
    subst h
    simp [twoSources, val_fault h1]
  | none =>
    obtain ⟨c, -, e1⟩ := val_value h1
    cases h2 : sourceFault s 2 b with
    | some g =>
      simp only [h1, h2, firstFault, Option.some.injEq] at h
      subst h
      simp [twoSources, e1, val_fault (s := s.withCap c) h2]
    | none => simp [h1, h2, firstFault] at h

/-- Two sources resolved. -/
theorem twoSources_value {s : State} {a b : Mode} (h1 : sourceFault s 1 a = none) (h2 : sourceFault s 2 b = none) :
    ∃ c, CapMove s c ∧
      twoSources a b s = .ok { a := sourceValue s 1 a, b := sourceValue s 2 b, state := s.withCap c } := by
  obtain ⟨c, hc, e1⟩ := val_value h1
  obtain ⟨d, hd, e2⟩ := val_value (s := s.withCap c) h2
  exact ⟨d, hc.trans hd, by simp [twoSources, e1, e2]⟩

/-- Where a storing instruction's parameters raise a fault, so does the instruction. -/
theorem storeResult_fault {f : Params → Int → Int → Except Fault Int} {s : State} {a b d : Mode} {g : Fault}
    (h : firstFault [sourceFault s 1 a, sourceFault s 2 b, destFault s 3 d] = some g) :
    storeResult f a b d s = .error g := by
  cases h12 : firstFault [sourceFault s 1 a, sourceFault s 2 b] with
  | some g' =>
    have : g' = g := by
      cases h1 : sourceFault s 1 a <;> cases h2 : sourceFault s 2 b <;> simp_all [firstFault]
    subst this
    simp [storeResult, twoSources_fault h12]
  | none =>
    have h1 : sourceFault s 1 a = none := by
      cases h1 : sourceFault s 1 a <;> simp_all [firstFault]
    have h2 : sourceFault s 2 b = none := by
      cases h2 : sourceFault s 2 b <;> simp_all [firstFault]
    have h3 : destFault s 3 d = some g := by
      cases h3 : destFault s 3 d <;> simp_all [firstFault]
    obtain ⟨c, -, e⟩ := twoSources_value h1 h2
    simp [storeResult, e, addr_fault (s := s.withCap c) h3]

/-- Where the parameters resolve, a storing instruction ends as its result does: a fault, or the result in the
destination cell and `pc` advanced by 4. -/
theorem storeResult_value {f : Params → Int → Int → Except Fault Int} {s : State} {a b d : Mode}
    (h : firstFault [sourceFault s 1 a, sourceFault s 2 b, destFault s 3 d] = none) :
    (∀ g, f s.params (sourceValue s 1 a) (sourceValue s 2 b) = .error g → storeResult f a b d s = .error g) ∧
    (∀ r, f s.params (sourceValue s 1 a) (sourceValue s 2 b) = .ok r →
      ∃ c, CapMove s c ∧ destAddress s 3 d < c ∧
        storeResult f a b d s = .ok (((s.withCap c).withMem (s.mem.set (destAddress s 3 d) r)).advance 4)) := by
  have h1 : sourceFault s 1 a = none := by
    cases h1 : sourceFault s 1 a <;> simp_all [firstFault]
  have h2 : sourceFault s 2 b = none := by
    cases h2 : sourceFault s 2 b <;> simp_all [firstFault]
  have h3 : destFault s 3 d = none := by
    cases h3 : destFault s 3 d <;> simp_all [firstFault]
  obtain ⟨c, hc, e⟩ := twoSources_value h1 h2
  obtain ⟨hok, c2, hc2, e3⟩ := addr_value (s := s.withCap c) h3
  refine ⟨fun g hg => by simp [storeResult, e, e3, hg], fun r hr => ?_⟩
  obtain ⟨c3, hc3, hlt, e4⟩ := memWrite_value (s := s.withCap c2) (v := r) hok
  refine ⟨c3, (hc.trans hc2).trans hc3, by simpa using hlt, ?_⟩
  simp only [destAddress_withCap, State.withCap_withCap] at e3
  simp only [destAddress_withCap, Int.toNat_natCast, State.withCap_withCap, State.withCap_mem] at e4
  simp [storeResult, e, e3, hr, e4]

/-- A jump whose parameters raise a fault raises it, taken or not (R112 step 2). -/
theorem jumpWhen_fault {taken : Int → Bool} {s : State} {a t : Mode} {f : Fault}
    (h : firstFault [sourceFault s 1 a, sourceFault s 2 t] = some f) : jumpWhen taken a t s = .error f := by
  simp [jumpWhen, twoSources_fault h]

/-- A jump whose parameters resolve: taken to a non-negative target, a fault for a negative one, or an advance by 3. -/
theorem jumpWhen_value {taken : Int → Bool} {s : State} {a t : Mode}
    (h : firstFault [sourceFault s 1 a, sourceFault s 2 t] = none) :
    ∃ c, CapMove s c ∧ jumpWhen taken a t s =
      if taken (sourceValue s 1 a) then
        if sourceValue s 2 t < 0 then .error (.negativeJumpTarget (sourceValue s 2 t))
        else .ok ((s.withCap c).withPc (sourceValue s 2 t).toNat)
      else .ok ((s.withCap c).advance 3) := by
  have h1 : sourceFault s 1 a = none := by
    cases h1 : sourceFault s 1 a <;> simp_all [firstFault]
  have h2 : sourceFault s 2 t = none := by
    cases h2 : sourceFault s 2 t <;> simp_all [firstFault]
  obtain ⟨c, hc, e⟩ := twoSources_value h1 h2
  exact ⟨c, hc, by simp [jumpWhen, e]⟩

end Sys2Proof.Machine
end

