-- ==== Sys2Proof/Laws/Exec.lean ====
section
/-! SUPPORT. What an instruction can answer, one lemma per shape and per instruction: where it completes, the next
state in terms of the state it started in; and the steps around it. Proofs cite these and unfold no meaning. -/

namespace Sys2Proof.Machine

theorem finish_next {r : Except Fault State} {t : State} : finish r = .next t ↔ r = .ok t := by
  cases r <;> simp [finish]

theorem finish_fault {r : Except Fault State} {f : Fault} : finish r = .fault f ↔ r = .error f := by
  cases r <;> simp [finish]

theorem finish_not_refused {r : Except Fault State} {x : Refusal} : finish r ≠ .refused x := by
  cases r <;> simp [finish]

theorem check_ok {p : Params} {r v : Int} : check p r = .ok v ↔ fits p r = true ∧ r = v := by
  unfold check
  split <;> simp_all

theorem check_error {p : Params} {r : Int} {f : Fault} : check p r = .error f ↔ fits p r = false ∧ .overflow r = f := by
  unfold check
  split <;> simp_all

/-- Where a storing instruction completes. -/
theorem storeResult_next {f : Params → Int → Int → Except Fault Int} {s t : State} {a b d : Mode}
    (h : storeResult f a b d s = .ok t) :
    firstFault [sourceFault s 1 a, sourceFault s 2 b, destFault s 3 d] = none ∧
    ∃ r c, f s.params (sourceValue s 1 a) (sourceValue s 2 b) = .ok r ∧ CapMove s c ∧ destAddress s 3 d < c ∧
      t = ((s.withCap c).withMem (s.mem.set (destAddress s 3 d) r)).advance 4 := by
  cases hf : firstFault [sourceFault s 1 a, sourceFault s 2 b, destFault s 3 d] with
  | some g => simp [storeResult_fault hf] at h
  | none =>
    refine ⟨rfl, ?_⟩
    obtain ⟨he, hv⟩ := storeResult_value (f := f) hf
    cases hr : f s.params (sourceValue s 1 a) (sourceValue s 2 b) with
    | error g => simp [he g hr] at h
    | ok r =>
      obtain ⟨c, hc, hlt, e⟩ := hv r hr
      exact ⟨r, c, rfl, hc, hlt, by simpa [e, eq_comm] using h⟩

/-- Where a jump completes. -/
theorem jumpWhen_next {taken : Int → Bool} {s t : State} {a g : Mode} (h : jumpWhen taken a g s = .ok t) :
    firstFault [sourceFault s 1 a, sourceFault s 2 g] = none ∧
    ∃ c, CapMove s c ∧
      ((taken (sourceValue s 1 a) = true ∧ 0 ≤ sourceValue s 2 g ∧
          t = (s.withCap c).withPc (sourceValue s 2 g).toNat) ∨
       (taken (sourceValue s 1 a) = false ∧ t = (s.withCap c).advance 3)) := by
  cases hf : firstFault [sourceFault s 1 a, sourceFault s 2 g] with
  | some f => simp [jumpWhen_fault hf] at h
  | none =>
    obtain ⟨c, hc, e⟩ := jumpWhen_value (taken := taken) hf
    refine ⟨rfl, c, hc, ?_⟩
    rw [e] at h
    split at h
    · split at h
      · simp at h
      · exact .inl ⟨‹_›, by omega, by simpa [eq_comm] using h⟩
    · exact .inr ⟨Bool.eq_false_iff.2 ‹¬ _›, by simpa [eq_comm] using h⟩

/-- Steps in order raise no fault exactly where none of them does. -/
@[simp] theorem firstFault_cons {x : Option Fault} {rest : List (Option Fault)} :
    firstFault (x :: rest) = none ↔ x = none ∧ firstFault rest = none := by
  cases x <;> simp [firstFault]

@[simp] theorem firstFault_nil : firstFault [] = none := rfl

/-- Where a list of steps raises a fault, one of them raises it. -/
theorem firstFault_mem {steps : List (Option Fault)} {f : Fault} (h : firstFault steps = some f) :
    some f ∈ steps := by
  induction steps with
  | nil => simp at h
  | cons x rest ih =>
    cases x with
    | none => exact List.mem_cons_of_mem _ (ih h)
    | some g =>
      simp only [firstFault, Option.some.injEq] at h
      exact h ▸ List.mem_cons_self

/-- The faults of a reference (R57, R58). -/
def AddressFaultOf (p : Params) (f : Fault) : Prop :=
  (∃ a, a < 0 ∧ f = .negativeAddress a) ∨ ∃ a m, f = .memoryExhausted a ∧ p.addrMax = some m ∧ (m : Int) < a

theorem addressFaultOf {p : Params} {a : Int} {f : Fault} (h : addressFault p a = some f) : AddressFaultOf p f := by
  rcases addressFault_cases h with ⟨ha, hf⟩ | ⟨-, hf, m, hm, hlt⟩
  · exact .inl ⟨a, ha, hf⟩
  · exact .inr ⟨a, m, hf, hm, hlt⟩

/-- The faults of a source parameter. -/
theorem sourceFault_cases {s : State} {k : Nat} {m : Mode} {f : Fault} (h : sourceFault s k m = some f) :
    AddressFaultOf s.params f ∨ (f = .invalidMode s.word k ∧ m.legalSource = false) := by
  unfold sourceFault at h
  split at h
  · cases h; exact .inl (addressFaultOf ‹_›)
  · cases m with
    | immediate => cases h
    | position => exact .inl (addressFaultOf h)
    | relative => exact .inl (addressFaultOf h)
    | undefined e => cases h; exact .inr ⟨rfl, rfl⟩

/-- A source parameter without a fault has a legal mode. -/
theorem legalSource_of_none {s : State} {k : Nat} {m : Mode} (h : sourceFault s k m = none) :
    m.legalSource = true := by
  unfold sourceFault at h
  split at h
  · cases h
  · cases m <;> first | rfl | cases h

/-- The faults of a destination parameter. -/
theorem destFault_cases {s : State} {k : Nat} {m : Mode} {f : Fault} (h : destFault s k m = some f) :
    AddressFaultOf s.params f ∨ (f = .invalidMode s.word k ∧ m.legalDest = false) ∨
      (f = .immediateWriteTarget s.word k ∧ m = .immediate) := by
  unfold destFault at h
  split at h
  · cases h; exact .inl (addressFaultOf ‹_›)
  · cases m with
    | immediate => cases h; exact .inr (.inr ⟨rfl, rfl⟩)
    | position => exact .inl (addressFaultOf h)
    | relative => exact .inl (addressFaultOf h)
    | undefined e => cases h; exact .inr (.inl ⟨rfl, rfl⟩)

/-- A destination parameter without a fault has a legal mode. -/
theorem legalDest_of_none {s : State} {k : Nat} {m : Mode} (h : destFault s k m = none) : m.legalDest = true := by
  unfold destFault at h
  split at h
  · cases h
  · cases m <;> first | rfl | cases h

/-- Where a storing instruction faults, a parameter or its result does. -/
theorem storeResult_error {f : Params → Int → Int → Except Fault Int} {s : State} {a b d : Mode} {g : Fault}
    (h : storeResult f a b d s = .error g) :
    some g ∈ [sourceFault s 1 a, sourceFault s 2 b, destFault s 3 d] ∨
      f s.params (sourceValue s 1 a) (sourceValue s 2 b) = .error g := by
  cases hf : firstFault [sourceFault s 1 a, sourceFault s 2 b, destFault s 3 d] with
  | some x =>
    rw [storeResult_fault hf] at h
    cases h
    exact .inl (firstFault_mem hf)
  | none =>
    obtain ⟨he, hv⟩ := storeResult_value (f := f) hf
    cases hr : f s.params (sourceValue s 1 a) (sourceValue s 2 b) with
    | error x => rw [he x hr] at h; cases h; exact .inr rfl
    | ok r => obtain ⟨c, -, -, e⟩ := hv r hr; rw [e] at h; cases h

/-- Where a jump faults, a parameter does or the jump is taken to a negative target. -/
theorem jumpWhen_error {taken : Int → Bool} {s : State} {a g : Mode} {f : Fault}
    (h : jumpWhen taken a g s = .error f) :
    some f ∈ [sourceFault s 1 a, sourceFault s 2 g] ∨ ∃ t, t < 0 ∧ f = .negativeJumpTarget t := by
  cases hf : firstFault [sourceFault s 1 a, sourceFault s 2 g] with
  | some x =>
    rw [jumpWhen_fault hf] at h
    cases h
    exact .inl (firstFault_mem hf)
  | none =>
    obtain ⟨c, -, e⟩ := jumpWhen_value (taken := taken) hf
    rw [e] at h
    split at h
    · split at h
      · cases h; exact .inr ⟨_, ‹_›, rfl⟩
      · cases h
    · cases h

/-- IN with a bad destination. -/
theorem execIn_fault {s : State} {d : Mode} {f : Fault} (h : destFault s 1 d = some f) :
    execIn d s = .fault f := by
  simp [execIn, addr_fault h]

/-- IN on an empty queue. -/
theorem execIn_suspend {s : State} {d : Mode} (h : destFault s 1 d = none) (hq : s.inq = []) :
    ∃ c, CapMove s c ∧ execIn d s = .next ((s.withCap c).withSt .suspendedOnInput) := by
  obtain ⟨-, c, hc, e⟩ := addr_value h
  exact ⟨c, hc, by simp [execIn, e, takeInput, hq, finish]⟩

/-- IN with a value at the front of the queue. -/
theorem execIn_value {s : State} {d : Mode} {v : Int} {rest : List Int} (h : destFault s 1 d = none)
    (hq : s.inq = v :: rest) :
    ∃ c, CapMove s c ∧ destAddress s 1 d < c ∧
      execIn d s =
        .next ((((s.withCap c).withInq rest).withMem (s.mem.set (destAddress s 1 d) v)).advance 2) := by
  obtain ⟨hok, c, hc, e⟩ := addr_value h
  obtain ⟨c2, hc2, hlt, e2⟩ := memWrite_value (s := (s.withCap c).withInq rest) (v := v) hok
  refine ⟨c2, hc.trans hc2, by simpa using hlt, ?_⟩
  simp only [Int.toNat_natCast, State.withInq_mem, State.withCap_mem] at e2
  simp only [execIn, e, takeInput, State.withCap_inq, hq, e2, finish]
  rfl

/-- Where IN completes. -/
theorem execIn_next {s t : State} {d : Mode} (h : execIn d s = .next t) :
    destFault s 1 d = none ∧ ∃ c, CapMove s c ∧
      ((s.inq = [] ∧ t = (s.withCap c).withSt .suspendedOnInput) ∨
       ∃ v rest, s.inq = v :: rest ∧ destAddress s 1 d < c ∧
         t = (((s.withCap c).withInq rest).withMem (s.mem.set (destAddress s 1 d) v)).advance 2) := by
  cases hf : destFault s 1 d with
  | some f => simp [execIn_fault hf] at h
  | none =>
    refine ⟨rfl, ?_⟩
    cases hq : s.inq with
    | nil =>
      obtain ⟨c, hc, e⟩ := execIn_suspend hf hq
      exact ⟨c, hc, .inl ⟨rfl, by simpa [e, eq_comm] using h⟩⟩
    | cons v rest =>
      obtain ⟨c, hc, hlt, e⟩ := execIn_value hf hq
      exact ⟨c, hc, .inr ⟨v, rest, rfl, hlt, by simpa [e, eq_comm] using h⟩⟩

/-- OUT with a bad source. -/
theorem execOut_fault {s : State} {a : Mode} {f : Fault} (h : sourceFault s 1 a = some f) :
    execOut a s = .fault f := by
  simp [execOut, val_fault h]

/-- OUT with a good source. -/
theorem execOut_value {s : State} {a : Mode} (h : sourceFault s 1 a = none) :
    ∃ c, CapMove s c ∧ execOut a s = .next (((s.withCap c).push (sourceValue s 1 a)).advance 2) := by
  obtain ⟨c, hc, e⟩ := val_value h
  exact ⟨c, hc, by simp [execOut, e]⟩

/-- Where OUT completes. -/
theorem execOut_next {s t : State} {a : Mode} (h : execOut a s = .next t) :
    sourceFault s 1 a = none ∧ ∃ c, CapMove s c ∧
      t = ((s.withCap c).push (sourceValue s 1 a)).advance 2 := by
  cases hf : sourceFault s 1 a with
  | some f => simp [execOut_fault hf] at h
  | none =>
    obtain ⟨c, hc, e⟩ := execOut_value hf
    exact ⟨rfl, c, hc, by simpa [e, eq_comm] using h⟩

/-- ARB with a bad source. -/
theorem execArb_fault {s : State} {a : Mode} {f : Fault} (h : sourceFault s 1 a = some f) :
    execArb a s = .fault f := by
  simp [execArb, val_fault h]

/-- ARB with a good source: a fault for an unrepresentable sum, or the sum in `rb`. -/
theorem execArb_value {s : State} {a : Mode} (h : sourceFault s 1 a = none) :
    (fits s.params (s.rb + sourceValue s 1 a) = false →
      execArb a s = .fault (.overflow (s.rb + sourceValue s 1 a))) ∧
    (fits s.params (s.rb + sourceValue s 1 a) = true →
      ∃ c, CapMove s c ∧ execArb a s = .next (((s.withCap c).withRb (s.rb + sourceValue s 1 a)).advance 2)) := by
  obtain ⟨c, hc, e⟩ := val_value h
  exact ⟨fun hf => by simp [execArb, e, check, hf], fun hf => ⟨c, hc, by simp [execArb, e, check, hf]⟩⟩

/-- Where IN faults, its destination does. -/
theorem execIn_error {s : State} {d : Mode} {f : Fault} (h : execIn d s = .fault f) : destFault s 1 d = some f := by
  cases hf : destFault s 1 d with
  | some g => rw [execIn_fault hf] at h; cases h; rfl
  | none =>
    cases hq : s.inq with
    | nil => obtain ⟨c, -, e⟩ := execIn_suspend hf hq; rw [e] at h; cases h
    | cons v rest => obtain ⟨c, -, -, e⟩ := execIn_value hf hq; rw [e] at h; cases h

/-- Where OUT faults, its source does. -/
theorem execOut_error {s : State} {a : Mode} {f : Fault} (h : execOut a s = .fault f) :
    sourceFault s 1 a = some f := by
  cases hf : sourceFault s 1 a with
  | some g => rw [execOut_fault hf] at h; cases h; rfl
  | none => obtain ⟨c, -, e⟩ := execOut_value hf; rw [e] at h; cases h

/-- Where ARB faults, its source or the sum does. -/
theorem execArb_error {s : State} {a : Mode} {f : Fault} (h : execArb a s = .fault f) :
    sourceFault s 1 a = some f ∨
      (fits s.params (s.rb + sourceValue s 1 a) = false ∧ f = .overflow (s.rb + sourceValue s 1 a)) := by
  cases hf : sourceFault s 1 a with
  | some g => rw [execArb_fault hf] at h; cases h; exact .inl rfl
  | none =>
    obtain ⟨h0, h1⟩ := execArb_value hf
    cases hr : fits s.params (s.rb + sourceValue s 1 a) with
    | false => rw [h0 hr] at h; cases h; exact .inr ⟨rfl, rfl⟩
    | true => obtain ⟨c, -, e⟩ := h1 hr; rw [e] at h; cases h

/-- Where ARB completes. -/
theorem execArb_next {s t : State} {a : Mode} (h : execArb a s = .next t) :
    sourceFault s 1 a = none ∧ fits s.params (s.rb + sourceValue s 1 a) = true ∧ ∃ c, CapMove s c ∧
      t = ((s.withCap c).withRb (s.rb + sourceValue s 1 a)).advance 2 := by
  cases hf : sourceFault s 1 a with
  | some f => simp [execArb_fault hf] at h
  | none =>
    obtain ⟨h0, h1⟩ := execArb_value hf
    cases hr : fits s.params (s.rb + sourceValue s 1 a) with
    | false => simp [h0 hr] at h
    | true =>
      obtain ⟨c, hc, e⟩ := h1 hr
      exact ⟨rfl, rfl, c, hc, by simpa [e, eq_comm] using h⟩

/-- No instruction refuses. -/
theorem exec_not_refused (i : Instr) (s : State) (r : Refusal) : exec i s ≠ .refused r := by
  intro h
  cases i with
  | add _ _ _ | mul _ _ _ | lt _ _ _ | eq _ _ _ | jnz _ _ | jz _ _ => exact finish_not_refused h
  | inp d =>
    simp only [exec, execIn] at h
    split at h
    · cases h
    · exact finish_not_refused h
  | out a => simp only [exec, execOut] at h; split at h <;> cases h
  | arb a =>
    simp only [exec, execArb] at h
    split at h
    · cases h
    · split at h <;> cases h
  | halt => cases h

/-! ### Steps -/

/-- A running engine steps by itself. -/
theorem step_running {s : State} (h : s.st = .running) : step s = engineStep s := by
  simp [step, h]

/-- An engine that is not running leaves the step to the host. -/
theorem step_host {s : State} (h : s.st ≠ .running) : step s = hostStep s := by
  unfold step
  split <;> simp_all

/-- One step of a running engine: the fetch faults, or the word is no instruction, or the instruction runs. -/
theorem engineStep_cases (s : State) :
    (∃ f, addressFault s.params (s.pc : Int) = some f ∧ engineStep s = .fault f) ∨
    (addressFault s.params (s.pc : Int) = none ∧
      ((∃ e, decode s.word = .error e ∧ engineStep s = .next (takeInvalidOpcode (s.touch s.pc))) ∨
       ∃ i, decode s.word = .ok i ∧ engineStep s = exec i (s.touch s.pc))) := by
  cases h : addressFault s.params (s.pc : Int) with
  | some f => exact .inl ⟨f, rfl, by simp [engineStep, memRead_fault h]⟩
  | none =>
    have e : memRead (s.pc : Int) s = .ok (s.word, s.touch s.pc) := by simp [memRead, h]
    cases hd : decode s.word with
    | error x => exact .inr ⟨rfl, .inl ⟨x, rfl, by simp [engineStep, e, hd]⟩⟩
    | ok i => exact .inr ⟨rfl, .inr ⟨i, rfl, by simp [engineStep, e, hd]⟩⟩

/-- What a host's step can come to. -/
theorem hostStep_cases (s : State) :
    (s.host = [] ∧ hostStep s = .next s) ∨
    (∃ program rest, s.host = .new program :: rest ∧
      ((∃ r, construct program (s.withHost rest) = .error r ∧ hostStep s = .refused r) ∨
       (firstUnfit s.params program = none ∧ withinMax s.params program.length = true ∧
        hostStep s = .next (State.fresh s.params program s.inq rest)))) ∨
    (∃ values rest, s.host = .queue values :: rest ∧
      ((∃ v, firstUnfit s.params values = some v ∧ hostStep s = .refused (.unrepresentableInput v)) ∨
       (firstUnfit s.params values = none ∧ hostStep s = .next ((s.withHost rest).withInq values)))) ∨
    (∃ rest, s.host = .run :: rest ∧ hostStep s = .next (invoke (s.withHost rest))) := by
  cases h : s.host with
  | nil => exact .inl ⟨rfl, by simp [hostStep, h]⟩
  | cons m rest =>
    right
    cases m with
    | new program =>
      refine .inl ⟨program, rest, rfl, ?_⟩
      cases hu : firstUnfit s.params program with
      | some v => exact .inl ⟨.unrepresentableProgramCell v, by simp [construct, hu], by simp [hostStep, h, construct, hu]⟩
      | none =>
        cases hw : withinMax s.params program.length with
        | false => exact .inl ⟨.programTooLong program.length, by simp [construct, hu, hw], by simp [hostStep, h, construct, hu, hw]⟩
        | true => exact .inr ⟨rfl, rfl, by simp [hostStep, h, construct, hu, hw]⟩
    | queue values =>
      refine .inr (.inl ⟨values, rest, rfl, ?_⟩)
      cases hu : firstUnfit s.params values with
      | some v => exact .inl ⟨v, rfl, by simp [hostStep, h, hu]⟩
      | none => exact .inr ⟨rfl, by simp [hostStep, h, hu]⟩
    | run => exact .inr (.inr ⟨rest, rfl, by simp [hostStep, h]⟩)

/-- No unfit value: every value is representable. -/
theorem firstUnfit_none {p : Params} {vs : List Int} : firstUnfit p vs = none ↔ ∀ v ∈ vs, fits p v = true := by
  induction vs with
  | nil => simp [firstUnfit]
  | cons v rest ih => by_cases h : fits p v <;> simp [firstUnfit, h, ih]

/-- The first unfit value is one of the values and is not representable. -/
theorem firstUnfit_some {p : Params} {vs : List Int} {v : Int} (h : firstUnfit p vs = some v) :
    v ∈ vs ∧ fits p v = false := by
  induction vs with
  | nil => simp [firstUnfit] at h
  | cons u rest ih =>
    by_cases hu : fits p u
    · simp only [firstUnfit, hu, if_true] at h
      exact ⟨List.mem_cons_of_mem _ (ih h).1, (ih h).2⟩
    · simp only [firstUnfit, hu, Bool.false_eq_true, if_false, Option.some.injEq] at h
      subst h
      exact ⟨List.mem_cons_self, by simpa using hu⟩

end Sys2Proof.Machine
end

