-- ==== Sys2Proof/Laws/Network.lean ====
section
/-! SUPPORT. The engine at an index after the ring's two updates. -/

namespace Sys2Proof.Machine

theorem engineAt_lt {k : Nat} {l : List State} {e : State} (h : engineAt k l = some e) : k < l.length := by
  induction l generalizing k with
  | nil => simp [engineAt] at h
  | cons x rest ih =>
    cases k with
    | zero => simp
    | succ k => exact Nat.succ_lt_succ (ih h)

@[simp] theorem forward_length (vs : List Int) (n : Nat) (l : List State) : (forward vs n l).length = l.length := by
  induction l generalizing n with
  | nil => simp [forward]
  | cons x rest ih => cases n <;> simp [forward, ih]

@[simp] theorem replaceEngine_length (t : State) (n : Nat) (l : List State) :
    (replaceEngine t n l).length = l.length := by
  induction l generalizing n with
  | nil => simp [replaceEngine]
  | cons x rest ih => cases n <;> simp [replaceEngine, ih]

theorem engineAt_forward (vs : List Int) (n k : Nat) (l : List State) :
    engineAt k (forward vs n l) =
      if k = n then (engineAt k l).map fun x => x.withInq (x.inq ++ vs) else engineAt k l := by
  induction l generalizing n k with
  | nil => simp [forward, engineAt]
  | cons x rest ih => cases n <;> cases k <;> simp [forward, engineAt, ih]

theorem engineAt_replaceEngine {t : State} {n : Nat} {l : List State} (hn : n < l.length) (k : Nat) :
    engineAt k (replaceEngine t n l) = if k = n then some t else engineAt k l := by
  induction l generalizing n k with
  | nil => simp at hn
  | cons x rest ih =>
    cases n <;> cases k <;> simp [replaceEngine, engineAt]
    exact ih (by simpa using hn) _

end Sys2Proof.Machine
end

