-- ==== Sys2Proof/Laws/Ports.lean ====
section
/-! SUPPORT. The bits of a port word, and what a sampling of the ports can do. -/

namespace Sys2Proof.Machine

@[simp] theorem bitsOf_length (n : Nat) (v : Int) : (bitsOf n v).length = n := by
  induction n with
  | zero => rfl
  | succ n ih => simp [bitsOf, ih]

/-- Bit `k` from the left is the binary digit of weight `2^(n-1-k)`. -/
theorem bitsOf_getElem? {n k : Nat} (v : Int) (hk : k < n) :
    (bitsOf n v)[k]? = some (decide (v / 2 ^ (n - 1 - k) % 2 = 1)) := by
  induction n generalizing k with
  | zero => omega
  | succ n ih =>
    cases k with
    | zero => simp [bitsOf]
    | succ k =>
      have e : n - 1 - k = n + 1 - 1 - (k + 1) := by omega
      rw [bitsOf, List.getElem?_cons_succ, ih (by omega), e]

theorem unsignedOf_lt (word : List Bool) : unsignedOf word < 2 ^ word.length := by
  induction word with
  | nil => simp [unsignedOf]
  | cons b rest ih =>
    simp only [unsignedOf, List.length_cons, Nat.pow_succ]
    cases b <;> simp <;> omega

/-- The low `n` bits stand for the value modulo `2^n`. -/
theorem unsignedOf_bitsOf (n : Nat) (v : Int) : (unsignedOf (bitsOf n v) : Int) = v % 2 ^ n := by
  induction n with
  | zero => simp [bitsOf, unsignedOf]
  | succ n ih =>
    have hp : (0 : Int) < 2 ^ n := by positivity
    have hd : v / 2 ^ n % 2 = 0 ∨ v / 2 ^ n % 2 = 1 := by omega
    have hs : v % 2 ^ (n + 1) = 2 ^ n * (v / 2 ^ n % 2) + v % 2 ^ n := by
      have hm := Int.emod_nonneg v hp.ne'
      have hl := Int.emod_lt_of_pos v hp
      have hv : v = 2 ^ n * (v / 2 ^ n % 2) + v % 2 ^ n + 2 ^ n * 2 * (v / 2 ^ n / 2) := by
        nlinarith [Int.mul_ediv_add_emod v (2 ^ n), Int.mul_ediv_add_emod (v / 2 ^ n) 2]
      rw [pow_succ]
      conv_lhs => rw [hv]
      rw [Int.add_mul_emod_self_left]
      exact Int.emod_eq_of_lt (by rcases hd with h | h <;> rw [h] <;> omega)
        (by rcases hd with h | h <;> rw [h] <;> omega)
    simp only [bitsOf, unsignedOf, bitsOf_length]
    rcases hd with h | h <;> rw [hs, h] <;> simp [ih]

/-- A word of the port's width has a value within the range of a cell. -/
theorem signedOf_fits {p : Params} {n : Nat} {b : Bool} {rest : List Bool} (hp : p.cellBits = some n)
    (hn : (b :: rest).length = n) : fits p (signedOf (b :: rest)) = true := by
  have hu := unsignedOf_lt rest
  have hu' : (unsignedOf rest : Int) < 2 ^ rest.length := by exact_mod_cast hu
  subst hn
  simp only [fits, hp, cellMin, cellMax, signedOf, List.length_cons, Nat.add_sub_cancel, Bool.and_eq_true,
    decide_eq_true_eq]
  cases b <;> simp <;> omega

/-- What the ports can carry is representable. -/
theorem portValue_fits {p : Params} {w : PortWord} {v : Int} (hp : p.wf = true) (h : portValue p w = .ok v) :
    fits p v = true := by
  unfold portValue at h
  split at h
  · next hc => simp [fits, hc]
  · cases h
  · next n word hc =>
    split at h
    · next hl =>
      cases h
      cases word with
      | nil => simp [Params.wf, hc] at hp; simp at hl; omega
      | cons b rest => exact signedOf_fits hc hl
    · cases h
  · cases h

/-- What a sampling that is not refused does: an instruction of a busy engine, a program cell, a construction, an
invocation, or nothing. -/
theorem portStep_cases {i : PortIn} {p q : PortState} {o : PortOut} (h : portStep i p = .next (q, o)) :
    (p.engine.st = .running ∧ ∃ queue t, portQueue i p.engine.params = .ok queue ∧
      engineStep (p.engine.withInq queue) = .next t ∧ q = { p with engine := t } ∧
      o = portOut (p.engine.withInq queue) t p.started i.peekAddr) ∨
    (p.engine.st ≠ .running ∧ o = portOut q.engine q.engine q.started i.peekAddr ∧
      (q.engine = p.engine ∨ q.engine = invoke p.engine ∨ ∃ program, construct program p.engine = .ok q.engine)) := by
  unfold portStep portExecute portLoad portQuiet at h
  split at h
  · next hs =>
    refine .inl ⟨hs, ?_⟩
    split at h
    · cases h
    · next queue hq =>
      simp only at h
      split at h
      · next t ht => cases h; exact ⟨queue, t, hq, ht, rfl, rfl⟩
      · cases h
      · cases h
  · next hs =>
    refine .inr ⟨hs, ?_⟩
    split at h
    · split at h
      · cases h
      · split at h
        · split at h
          · next t ht => cases h; exact ⟨rfl, .inr (.inr ⟨_, ht⟩)⟩
          · cases h
        · cases h; exact ⟨rfl, .inl rfl⟩
    · split at h
      · cases h; exact ⟨rfl, .inr (.inl rfl)⟩
      · cases h; exact ⟨rfl, .inl rfl⟩

end Sys2Proof.Machine
end

