-- ==== Sys2Proof/Laws/Protocol.lean ====
section
/-! SUPPORT. What a call of `run` can come to. -/

namespace Sys2Proof.Machine

/-- The call of a running engine is refused, and so is a queue with an unrepresentable value; any other call enters the
engine (48_run_protocol.md R218, R223). -/
theorem runCall_cases (n : Nat) (q : List Int) (s : State) :
    (s.st = .running ∧ runCall n q s = .refused .runWhileRunning) ∨
    (s.st ≠ .running ∧ ∃ v, firstUnfit s.params q = some v ∧ runCall n q s = .refused (.unrepresentableInput v)) ∨
    (s.st ≠ .running ∧ (∀ v ∈ q, fits s.params v = true) ∧
      runCall n q s = runLoop n (invoke (s.withInq q))) := by
  unfold runCall
  by_cases hs : s.st = .running
  · exact .inl ⟨hs, if_pos hs⟩
  rw [if_neg hs]
  cases h : firstUnfit s.params q with
  | some v => exact .inr (.inl ⟨hs, v, rfl, rfl⟩)
  | none => exact .inr (.inr ⟨hs, firstUnfit_none.1 h, rfl⟩)

/-- A call that returned was given a representable queue and an engine that was not running. -/
theorem runCall_returned {n : Nat} {q out : List Int} {s t : State} {x : Status}
    (h : runCall n q s = .returned t out x) :
    s.st ≠ .running ∧ (∀ v ∈ q, fits s.params v = true) ∧ runLoop n (invoke (s.withInq q)) = .returned t out x := by
  rcases runCall_cases n q s with ⟨-, e⟩ | ⟨-, v, -, e⟩ | ⟨hs, hq, e⟩
  · rw [e] at h; cases h
  · rw [e] at h; cases h
  · exact ⟨hs, hq, e ▸ h⟩

end Sys2Proof.Machine
end

