-- ==== Sys2Proof/Tests/Slice0.lean ====
section
/-! SUPPORT. The model's own tests: words and expected results from 95_test_vectors.md (Vn names the vector), from
30_encoding.md and from the rules cited; and for every statement with hypotheses a witness that meets them all, each
clause at a boundary value. -/

namespace Sys2Proof.Tests

open Sys2Proof Sys2Proof.Machine

/-! ### Helpers -/

/-- An engine of the program with a queue, in an invocation (`new`, then the entry of `run`). -/
def engine (p : Params) (program : List Int) (inq : List Int) : State :=
  (State.fresh p program inq []).withSt .running

/-- The same with the reference parameters. -/
def refEngine (program : List Int) (inq : List Int) : State := engine Params.reference program inq

/-- `CELL_BITS = 8`. -/
def bits8 : Params := { cellBits := some 8, addrMax := none }

/-- `ADDR_MAX = 15`. -/
def max15 : Params := { cellBits := none, addrMax := some 15 }

/-- A field or two of the next state. -/
def look {α : Type} (f : State → α) : Host.Outcome State Fault Refusal → Option α
  | .next t => some (f t)
  | .fault _ => none
  | .refused _ => none

/-- The fault an outcome stops with. -/
def faultOf : Host.Outcome State Fault Refusal → Option Fault
  | .next _ => none
  | .fault f => some f
  | .refused _ => none

/-! ### WellFormed: one refused term for each check (30_encoding.md R81, R85) -/

theorem test_wellFormed_accepts : Instr.wellFormed (.add .immediate .relative .position) = true := by decide
theorem test_wellFormed_add_immediate_dst : Instr.wellFormed (.add .position .position .immediate) = false := by decide
theorem test_wellFormed_add_source1 : Instr.wellFormed (.add (.undefined 0) .position .position) = false := by decide
theorem test_wellFormed_mul_source2 : Instr.wellFormed (.mul .position (.undefined 6) .position) = false := by decide
theorem test_wellFormed_in_immediate_dst : Instr.wellFormed (.inp .immediate) = false := by decide
theorem test_wellFormed_out_source : Instr.wellFormed (.out (.undefined 0)) = false := by decide
theorem test_wellFormed_jnz_target : Instr.wellFormed (.jnz .position (.undefined 0)) = false := by decide
theorem test_wellFormed_jz_source : Instr.wellFormed (.jz (.undefined 0) .position) = false := by decide
theorem test_wellFormed_lt_undefined_dst : Instr.wellFormed (.lt .position .position (.undefined 0)) = false := by decide
theorem test_wellFormed_eq_immediate_dst : Instr.wellFormed (.eq .position .position .immediate) = false := by decide
theorem test_wellFormed_arb_source : Instr.wellFormed (.arb (.undefined 2)) = false := by decide

/-! ### Decoding: every constructor from a word written out by R85, `op + 100*A + 1000*B + 10000*C` -/

theorem test_decode_add : decode 21101 = .ok (.add .immediate .immediate .relative) := by rfl
theorem test_decode_mul : decode 1002 = .ok (.mul .position .immediate .position) := by rfl
theorem test_decode_in : decode 203 = .ok (.inp .relative) := by rfl
theorem test_decode_out : decode 104 = .ok (.out .immediate) := by rfl
theorem test_decode_jnz : decode 1105 = .ok (.jnz .immediate .immediate) := by rfl
theorem test_decode_jz : decode 2106 = .ok (.jz .immediate .relative) := by rfl
theorem test_decode_lt : decode 1207 = .ok (.lt .relative .immediate .position) := by rfl
theorem test_decode_eq : decode 20108 = .ok (.eq .immediate .position .relative) := by rfl
theorem test_decode_arb : decode 109 = .ok (.arb .immediate) := by rfl
theorem test_decode_halt : decode 99 = .ok .halt := by rfl
/-- R91: a digit no parameter uses is ignored. -/
theorem test_decode_unused_digit : decode 100001 = .ok (.add .position .position .position) := by rfl
/-- R83, R90: digits 3 and 9 have no mode. -/
theorem test_decode_mode_digits : decode 9304 = .ok (.out (.undefined 0)) ∧ decode 904 = .ok (.out (.undefined 6)) :=
  ⟨rfl, rfl⟩
/-- V58: opcode values 0 and 98. -/
theorem test_decode_refuses : decode 0 = .error (.undefinedOpcode 0) ∧ decode 98 = .error (.undefinedOpcode 98) ∧
    decode 100 = .error (.undefinedOpcode 100) ∧ decode 10 = .error (.undefinedOpcode 10) := ⟨rfl, rfl, rfl, rfl⟩
/-- V60. -/
theorem test_decode_negative : decode (-1) = .error (.negativeWord (-1)) ∧
    decode (-99) = .error (.negativeWord (-99)) := ⟨rfl, rfl⟩
/-- The words of 30_encoding.md R85 for the encoder. -/
theorem test_encode_words : encode (.mul .position .immediate .position) = 1002 ∧
    encode (.lt .relative .relative .relative) = 22207 ∧ encode .halt = 99 := by decide
theorem test_decodeTableWord : decodeTableWord 32 1101 = some (.add .immediate .immediate .position) ∧
    decodeTableWord 8 99 = some .halt ∧ decodeTableWord 8 0 = none := by decide

/-! ### One step of each instruction -/

/-- V10. -/
theorem test_add_signed_immediates : look (fun t => (t.cell 5, t.pc)) (step (refEngine [1101, -5, 3, 5, 99, 0] [])) =
    some (-2, 4) := by decide
/-- V16: the write lands after the reads; the advance is 4. -/
theorem test_add_onto_own_parameter : look (fun t => (t.cell 3, t.pc)) (step (refEngine [1101, 1, 1, 3, 99] [])) =
    some (2, 4) := by decide
/-- V12. -/
theorem test_mul_negatives : look (fun t => (t.cell 5, t.pc)) (step (refEngine [1102, -3, -4, 5, 99, 0] [])) =
    some (12, 4) := by decide
/-- V14: no wrap at 32 bits. -/
theorem test_mul_wide : look (fun t => t.cell 7)
    (step (refEngine [1102, 34915192, 34915192, 7, 4, 7, 99, 0] [])) = some 1219070632396864 := by decide
/-- V48: relative destination, with `rb = 10`. -/
theorem test_in_relative : look (fun t => (t.cell 12, t.inq, t.pc))
    (step ((refEngine [109, 10, 203, 2, 204, 2, 99] [42]).withRb 10 |>.withPc 2)) = some (42, [], 4) := by decide
/-- V7: nothing but `st` changes on an empty queue. -/
theorem test_in_suspends : look (fun t => (t.st, t.pc, t.cell 0, t.inq)) (step (refEngine [3, 0, 4, 0, 99] [])) =
    some (.suspendedOnInput, 0, 3, []) := by decide
/-- V43. -/
theorem test_out_negative : look (fun t => (t.out, t.pc)) (step (refEngine [104, -5, 99] [])) =
    some ([-5], 2) := by decide
/-- V68. -/
theorem test_out_negative_address : faultOf (step (refEngine [4, -1, 99] [])) = some (.negativeAddress (-1)) := by decide
/-- V38: a negative value is nonzero; the target is read from memory. -/
theorem test_jnz_negative_value : look (fun t => t.pc) (step (refEngine [5, 7, 8, 99, 104, 9, 99, -2, 4] [])) =
    some 4 := by decide
/-- V41. -/
theorem test_jnz_negative_target : faultOf (step (refEngine [1105, 1, -3, 99] [])) =
    some (.negativeJumpTarget (-3)) := by decide
/-- V39: a cell beyond the program reads 0. -/
theorem test_jz_beyond_program : look (fun t => t.pc) (step (refEngine [6, 9, 7, 99, 104, 3, 99, 4] [])) =
    some 4 := by decide
/-- V65: the target of a jump not taken is still resolved. -/
theorem test_jz_resolves_target : faultOf (step (refEngine [3106, 5, 0, 99] [])) = some (.invalidMode 3106 2) := by decide
/-- V26. -/
theorem test_lt_negative : look (fun t => (t.cell 5, t.pc)) (step (refEngine [1107, -1, 0, 5, 99, -7] [])) =
    some (1, 4) := by decide
/-- V28. -/
theorem test_lt_equal : look (fun t => t.cell 5) (step (refEngine [1107, 4, 4, 5, 99, -7] [])) = some 0 := by decide
/-- V29. -/
theorem test_eq_negatives : look (fun t => (t.cell 5, t.pc)) (step (refEngine [1108, -3, -3, 5, 99, -7] [])) =
    some (1, 4) := by decide
/-- V30. -/
theorem test_eq_sign : look (fun t => t.cell 5) (step (refEngine [1108, 5, -5, 5, 99, -7] [])) = some 0 := by decide
/-- V52, its second instruction: the value is read through the old `rb`. -/
theorem test_arb_old_base : look (fun t => (t.rb, t.pc))
    (step ((refEngine [109, 3, 209, -1, 204, 1, 99] []).withRb 3 |>.withPc 2)) = some (212, 4) := by decide
/-- V50, its second instruction: `rb` may go negative. -/
theorem test_arb_negative : look (fun t => t.rb) (step ((refEngine [109, 5, 109, -8, 99] []).withRb 5 |>.withPc 2)) =
    some (-3) := by decide
/-- V56. -/
theorem test_halt : look (fun t => (t.st, t.pc)) (step (refEngine [99] [])) = some (.halted, 0) := by decide
/-- V17, its second fetch: a cell never written reads 0, which is no instruction. -/
theorem test_invalid_opcode : look (fun t => (t.st, t.pc)) (step (((refEngine [1101, 1, 1, 7] []).withPc 4))) =
    some (.failed, 4) := by decide
/-- `withFetchWord` at reset: the next step runs exactly the word, with operand cells 0 (45_relative_base.md R180). -/
theorem test_withFetchWord : look (fun t => (t.rb, t.pc)) (step (State.reset.withFetchWord 16 9)) = some (9, 2) := by
  decide
/-- V75: no wrap to address 0. -/
theorem test_memory_exhausted : faultOf (step (engine max15 [1101, 1, 1, 16, 99] [])) =
    some (.memoryExhausted 16) := by decide
/-- V70. -/
theorem test_overflow : faultOf (step (engine bits8 [1101, 100, 100, 5, 99, 0] [])) = some (.overflow 200) := by decide
/-- V47: the host runs `new`, fills the queue and calls `run`; one step each. -/
theorem test_host_moves : look (fun t => (t.cell 0, t.st, t.host))
    (step { State.reset with host := [.new [99], .run] }) = some (99, .idle, [.run]) := by decide
/-- V46 in a ring of two: the first returns `[11]` with `pc = 2`, which ends up behind the 6 in the second's queue. -/
theorem test_ring : (match ringTurn 2 (EngineRing.mk
      [State.fresh Params.reference [104, 11, 3, 7, 4, 7, 99, 0] [] [], State.fresh Params.reference [3, 5] [6] []] 0) with
    | .next r => r.engines.map (fun e => (e.pc, e.inq))
    | _ => []) = [(2, []), (0, [6, 11])] := by decide

/-! ### Witnesses for the statements about encoding -/

theorem witness_ModeDigitsByWeight : (0 < 10 ∧ 9 < 10 ∧ 3 < 10) ∧
    decode ((1 + 100 * 0 + 1000 * 9 + 10000 * 3 + 100000 * 7 : Nat) : Int) =
      .ok (.add .position (.undefined 6) (.undefined 0)) := ⟨by decide, rfl⟩
theorem witness_UnusedDigitsIgnored :
    decode ((104 : Nat) : Int) = .ok (.out .immediate) ∧ opcodeOf 99104 = opcodeOf 104 ∧
    (∀ k, 1 ≤ k → k < Instr.cells (.out .immediate) → modeDigit 99104 k = modeDigit 104 k) :=
  ⟨rfl, rfl, by intro k h1 h2; have : k = 1 := by simp only [Instr.cells] at h2; omega
                subst this; rfl⟩
theorem witness_OpcodeGivesInstructionAndLength :
    (∃ i, decode ((12399 : Nat) : Int) = .ok i) ∧ (∃ i, decode ((9 : Nat) : Int) = .ok i) ∧
    (∃ i, decode ((6 : Nat) : Int) = .ok i) ∧ (∃ i, decode ((1 : Nat) : Int) = .ok i) :=
  ⟨⟨_, rfl⟩, ⟨_, rfl⟩, ⟨_, rfl⟩, ⟨_, rfl⟩⟩
theorem witness_NegativeWordsRejected : (-1 : Int) < 0 ∧ (-99 : Int) < 0 := by decide

/-! ### Witnesses for the statements about memory: -1, 0, `ADDR_MAX` and the address above it -/

/-- An engine with `ADDR_MAX = 15`. -/
def small : State := engine max15 [1101, 1, 1, 15, 99] []

theorem witness_MemReadOutcomes : ((-1 : Int) < 0) ∧ (small.params.addrMax = some 15 ∧ ((15 : Nat) : Int) < 16) ∧
    ((0 : Int) ≤ 15 ∧ ∀ m, small.params.addrMax = some m → (15 : Int) ≤ m) ∧
    ((0 : Int) ≤ 0 ∧ ∀ m, small.params.addrMax = some m → (0 : Int) ≤ m) ∧ (∀ v, (15, v) ∉ small.mem) :=
  ⟨by decide, ⟨rfl, by decide⟩, ⟨by decide, (by intro m h; cases h; decide)⟩, ⟨by decide, (by intro m h; cases h; decide)⟩,
    by intro v h; simp [small, engine, State.fresh, State.withSt, Memory.load, Memory.push] at h⟩
theorem witness_MemWriteOutcomes : small.mem.wf = true ∧ ((-1 : Int) < 0) ∧
    (small.params.addrMax = some 15 ∧ ((15 : Nat) : Int) < 16) ∧
    ((0 : Int) ≤ 15 ∧ ∀ m, small.params.addrMax = some m → (15 : Int) ≤ m) ∧ (4 : Int).toNat < small.cap :=
  ⟨rfl, by decide, ⟨rfl, by decide⟩, ⟨by decide, (by intro m h; cases h; decide)⟩, by decide⟩
theorem witness_GrowthWithinBounds : (15 ≤ 15 ∧ ∀ m, max15.addrMax = some m → 15 ≤ m) ∧
    (0 ≤ 100 ∧ ∀ m, Params.reference.addrMax = some m → 100 ≤ m) :=
  ⟨⟨by decide, (by intro m h; cases h; decide)⟩, by decide, (by intro m h; cases h)⟩

/-! ### Witnesses for the statements of results: one state that completes, and one for each kind of fault -/

/-- The words of 95_test_vectors.md A.3 and V57, V62 for the clause on the opcode of each result statement. -/
theorem witness_opcode_words : 21101 % 100 = 1 ∧ 1002 % 100 = 2 ∧ 203 % 100 = 3 ∧ 1104 % 100 = 4 ∧ 1105 % 100 = 5 ∧
    2106 % 100 = 6 ∧ 1207 % 100 = 7 ∧ 20108 % 100 = 8 ∧ 109 % 100 = 9 ∧ 12399 % 100 = 99 := by decide
/-- V71, V72: the smallest representable sum, and the one below it. V66: an immediate destination. -/
theorem witness_AddStoresSum :
    (let s := engine bits8 [1101, -100, -28, 5, 99, 0] []
     s.mem.wf = true ∧ firstFault [sourceFault s 1 .immediate, sourceFault s 2 .immediate, destFault s 3 .position,
       overflowFault s (sourceValue s 1 .immediate + sourceValue s 2 .immediate)] = none) ∧
    (let s := engine bits8 [1101, -100, -29, 5, 99, 0] []
     s.mem.wf = true ∧ firstFault [sourceFault s 1 .immediate, sourceFault s 2 .immediate, destFault s 3 .position,
       overflowFault s (sourceValue s 1 .immediate + sourceValue s 2 .immediate)] = some (.overflow (-129))) ∧
    (let s := refEngine [11101, 1, 2, 3, 99] []
     s.mem.wf = true ∧ firstFault [sourceFault s 1 .immediate, sourceFault s 2 .immediate, destFault s 3 .immediate,
       overflowFault s (sourceValue s 1 .immediate + sourceValue s 2 .immediate)] =
         some (.immediateWriteTarget 11101 3)) := by decide
/-- V11, V73. -/
theorem witness_MulStoresProduct :
    (let s := refEngine [1102, -3, 4, 5, 99, 0] []
     s.mem.wf = true ∧ firstFault [sourceFault s 1 .immediate, sourceFault s 2 .immediate, destFault s 3 .position,
       overflowFault s (sourceValue s 1 .immediate * sourceValue s 2 .immediate)] = none) ∧
    (let s := engine { cellBits := some 32, addrMax := none } [1102, 34915192, 34915192, 7, 4, 7, 99, 0] []
     s.mem.wf = true ∧ firstFault [sourceFault s 1 .immediate, sourceFault s 2 .immediate, destFault s 3 .position,
       overflowFault s (sourceValue s 1 .immediate * sourceValue s 2 .immediate)] =
         some (.overflow 1219070632396864)) := by decide
/-- V31; and a negative destination address (R58). -/
theorem witness_LtStoresTruthValue :
    (let s := refEngine [7, 5, 6, 5, 99, 3, 9] []
     s.mem.wf = true ∧ sourceValue s 1 .position < sourceValue s 2 .position ∧
       firstFault [sourceFault s 1 .position, sourceFault s 2 .position, destFault s 3 .position] = none) ∧
    (let s := refEngine [7, 5, 6, -1, 99, 3, 9] []
     s.mem.wf = true ∧ firstFault [sourceFault s 1 .position, sourceFault s 2 .position, destFault s 3 .position] =
       some (.negativeAddress (-1))) := by decide
/-- V29; and the parameter cell itself above `ADDR_MAX`. -/
theorem witness_EqStoresTruthValue :
    (let s := refEngine [1108, -3, -3, 5, 99, -7] []
     s.mem.wf = true ∧ sourceValue s 1 .immediate = sourceValue s 2 .immediate ∧
       firstFault [sourceFault s 1 .immediate, sourceFault s 2 .immediate, destFault s 3 .position] = none) ∧
    (let s := (engine max15 [] []).withPc 13
     s.mem.wf = true ∧ firstFault [sourceFault s 1 .immediate, sourceFault s 2 .immediate, destFault s 3 .position] =
       some (.memoryExhausted 16)) := by decide
/-- V45; V67. -/
theorem witness_InStoresFrontValue :
    (let s := refEngine [3, 0, 4, 0, 99] [-12]
     s.mem.wf = true ∧ s.inq = -12 :: [] ∧ destFault s 1 .position = none) ∧
    (let s := refEngine [103, 5, 99] [1]
     s.mem.wf = true ∧ s.inq = 1 :: [] ∧ destFault s 1 .immediate = some (.immediateWriteTarget 103 1)) := by decide
theorem witness_InSuspendsOnEmptyQueue :
    (let s := refEngine [3, 0, 4, 0, 99] []
     s.inq = [] ∧ destFault s 1 .position = none) ∧
    (let s := refEngine [103, 5, 99] []
     s.inq = [] ∧ destFault s 1 .immediate = some (.immediateWriteTarget 103 1)) := by decide
/-- V43; V64. -/
theorem witness_OutAppendsValue :
    sourceFault (refEngine [104, -5, 99] []) 1 .immediate = none ∧
    sourceFault (refEngine [304, 0, 99] []) 1 (.undefined 0) = some (.invalidMode 304 1) := by decide
/-- V34 taken, V35 not taken with a negative target, V41 taken to one. -/
theorem witness_JnzJumpsWhenNonzero :
    (let s := refEngine [1105, 1, 4, 99, 104, 7, 99] []
     firstFault [sourceFault s 1 .immediate, sourceFault s 2 .immediate,
       targetFault (decide (sourceValue s 1 .immediate ≠ 0)) (sourceValue s 2 .immediate)] = none) ∧
    (let s := refEngine [1105, 0, -3, 99] []
     firstFault [sourceFault s 1 .immediate, sourceFault s 2 .immediate,
       targetFault (decide (sourceValue s 1 .immediate ≠ 0)) (sourceValue s 2 .immediate)] = none) ∧
    (let s := refEngine [1105, 1, -3, 99] []
     firstFault [sourceFault s 1 .immediate, sourceFault s 2 .immediate,
       targetFault (decide (sourceValue s 1 .immediate ≠ 0)) (sourceValue s 2 .immediate)] =
         some (.negativeJumpTarget (-3))) := by decide
/-- V36 taken, V37 not taken, and a taken jump to -1. -/
theorem witness_JzJumpsWhenZero :
    (let s := refEngine [1106, 0, 4, 99, 104, 8, 99] []
     firstFault [sourceFault s 1 .immediate, sourceFault s 2 .immediate,
       targetFault (decide (sourceValue s 1 .immediate = 0)) (sourceValue s 2 .immediate)] = none) ∧
    (let s := refEngine [1106, 5, 4, 99, 104, 8, 99] []
     firstFault [sourceFault s 1 .immediate, sourceFault s 2 .immediate,
       targetFault (decide (sourceValue s 1 .immediate = 0)) (sourceValue s 2 .immediate)] = none) ∧
    (let s := refEngine [1106, 0, -1, 99] []
     firstFault [sourceFault s 1 .immediate, sourceFault s 2 .immediate,
       targetFault (decide (sourceValue s 1 .immediate = 0)) (sourceValue s 2 .immediate)] =
         some (.negativeJumpTarget (-1))) := by decide
/-- V49; `rb` at the greatest value of 8 bits, and one above. -/
theorem witness_ArbAddsToRelativeBase :
    (let s := (engine bits8 [109, 7, 99] []).withRb 120
     firstFault [sourceFault s 1 .immediate, overflowFault s (s.rb + sourceValue s 1 .immediate)] = none) ∧
    (let s := (engine bits8 [109, 8, 99] []).withRb 120
     firstFault [sourceFault s 1 .immediate, overflowFault s (s.rb + sourceValue s 1 .immediate)] =
       some (.overflow 128)) := by decide

/-! ### Witnesses for the rules over all instructions -/

theorem witness_CellFrame : (∃ t, exec (.add .immediate .immediate .position) (refEngine [1101, 1, 1, 3, 99] []) = .next t) ∧
    storedTo (.add .immediate .immediate .position) (refEngine [1101, 1, 1, 3, 99] []) ≠ some 4 ∧
    (∃ t, exec (.inp .position) (refEngine [3, 0] []) = .next t) ∧ storedTo (.inp .position) (refEngine [3, 0] []) ≠ some 0 :=
  ⟨⟨_, rfl⟩, by decide, ⟨_, rfl⟩, by decide⟩
theorem witness_RegisterFrame : (∃ t, exec (.jz .immediate .immediate) (refEngine [1106, 0, 4] []) = .next t) ∧
    (∀ a, Instr.jz .immediate .immediate ≠ .arb a) ∧ (∀ a, Instr.jz .immediate .immediate ≠ .out a) ∧
    (∀ d, Instr.jz .immediate .immediate ≠ .inp d) ∧ Instr.jz .immediate .immediate ≠ .halt :=
  ⟨⟨_, rfl⟩, (by intro a h; cases h), (by intro a h; cases h), (by intro d h; cases h), by decide⟩
theorem witness_PcUpdate : (∃ t, exec (.jnz .immediate .immediate) (refEngine [1105, 1, 4] []) = .next t) ∧
    (∃ t, exec (.inp .position) (refEngine [3, 0] []) = .next t) ∧
    (∃ t, exec (.inp .position) (refEngine [3, 0] [7]) = .next t) := ⟨⟨_, rfl⟩, ⟨_, rfl⟩, ⟨_, rfl⟩⟩
theorem witness_QueueEnds : (∃ t, exec (.inp .position) (refEngine [3, 0] [7, 8]) = .next t) ∧
    (∃ t, exec (.out .immediate) (refEngine [104, 5] []) = .next t) := ⟨⟨_, rfl⟩, ⟨_, rfl⟩⟩
theorem witness_OnlyInSuspends : (refEngine [3, 0] []).st = .running ∧
    ∃ t, exec (.inp .position) (refEngine [3, 0] []) = .next t ∧ t.st = .suspendedOnInput := ⟨rfl, _, rfl, rfl⟩
theorem witness_FaultTable : exec (.out (.undefined 0)) (refEngine [304, 0, 99] []) = .fault (.invalidMode 304 1) ∧
    ∃ t, exec .halt ((refEngine [99] []).withSt .failed) = .next t := ⟨rfl, _, rfl⟩
theorem witness_FaultTable_failed : ∃ t, exec (.arb .immediate) ((refEngine [109, 1] []).withSt .failed) = .next t ∧
    t.st = .failed := ⟨_, rfl, rfl⟩
theorem witness_UnboundedNeverOverflows : (refEngine [4, -1] []).params = Params.reference ∧
    step (refEngine [4, -1] []) = .fault (.negativeAddress (-1)) := ⟨rfl, rfl⟩
theorem witness_IllFormedNeverCompletes : ∃ t, exec (.mul .immediate .immediate .position)
    (refEngine [1102, 2, 3, 5] []) = .next t := ⟨_, rfl⟩
theorem witness_CapacityUnobservable : SameButCap (refEngine [104, 5] []) ((refEngine [104, 5] []).withCap 99) := rfl

/-! ### Witnesses for the statements about a step -/

theorem witness_StepRunsDecodedInstruction :
    (let s := (engine max15 [] []).withPc 15 |>.withMem [(15, 99)]
     s.st = .running ∧ (∀ m, s.params.addrMax = some m → s.pc ≤ m) ∧ decode s.word = .ok .halt) :=
  ⟨rfl, (by intro m h; cases h; decide), rfl⟩
theorem witness_InvalidOpcodeTaken :
    (let s := refEngine [-1] []
     s.st = .running ∧ (∀ m, s.params.addrMax = some m → s.pc ≤ m) ∧ invalidWord s.word) ∧
    (let s := (engine max15 [] []).withPc 15
     s.st = .running ∧ (∀ m, s.params.addrMax = some m → s.pc ≤ m) ∧ invalidWord s.word) ∧
    invalidWord (refEngine [98] []).word :=
  ⟨⟨rfl, (by intro m h; cases h), .inl (by decide)⟩, ⟨rfl, (by intro m h; cases h; decide), .inr (by decide)⟩,
    .inr (by decide)⟩
theorem witness_FetchAboveMaxFaults :
    (let s := (engine max15 [] []).withPc 16
     s.st = .running ∧ s.params.addrMax = some 15 ∧ 15 < s.pc) := by decide
/-- V3: the first instruction overwrites the next instruction's word; and each other storing instruction doing the
same, with a word that decodes and one that does not. -/
theorem witness_StoreSeenByNextFetch :
    (let s := refEngine [1, 1, 1, 4, 99, 5, 6, 0, 99] []
     s.mem.wf = true ∧ s.st = .running ∧ (∃ t, exec (.add .position .position .position) s = .next t ∧
       storedTo (.add .position .position .position) s = some t.pc) ∧
       storedValue (.add .position .position .position) s = some 2 ∧
       decode 2 = .ok (.mul .position .position .position)) ∧
    (let s := refEngine [1102, 33, 3, 4] []
     s.mem.wf = true ∧ s.st = .running ∧ (∃ t, exec (.mul .immediate .immediate .position) s = .next t ∧
       storedTo (.mul .immediate .immediate .position) s = some t.pc) ∧
       storedValue (.mul .immediate .immediate .position) s = some 99 ∧ decode 99 = .ok .halt) ∧
    (let s := refEngine [1107, 3, 8, 4] []
     s.mem.wf = true ∧ s.st = .running ∧ (∃ t, exec (.lt .immediate .immediate .position) s = .next t ∧
       storedTo (.lt .immediate .immediate .position) s = some t.pc) ∧
       storedValue (.lt .immediate .immediate .position) s = some 1 ∧
       decode 1 = .ok (.add .position .position .position)) ∧
    (let s := refEngine [1108, 3, 8, 4, 99] []
     s.mem.wf = true ∧ s.st = .running ∧ (∃ t, exec (.eq .immediate .immediate .position) s = .next t ∧
       storedTo (.eq .immediate .immediate .position) s = some t.pc) ∧
       storedValue (.eq .immediate .immediate .position) s = some 0 ∧ invalidWord 0) ∧
    (let s := refEngine [3, 2, 99] [104]
     s.mem.wf = true ∧ s.st = .running ∧ (∃ t, exec (.inp .position) s = .next t ∧
       storedTo (.inp .position) s = some t.pc) ∧
       storedValue (.inp .position) s = some 104 ∧ decode 104 = .ok (.out .immediate)) :=
  ⟨⟨rfl, rfl, ⟨_, rfl, rfl⟩, rfl, rfl⟩, ⟨rfl, rfl, ⟨_, rfl, rfl⟩, rfl, rfl⟩, ⟨rfl, rfl, ⟨_, rfl, rfl⟩, rfl, rfl⟩,
    ⟨rfl, rfl, ⟨_, rfl, rfl⟩, rfl, .inr (by decide)⟩, ⟨rfl, rfl, ⟨_, rfl, rfl⟩, rfl, rfl⟩⟩

/-- An engine that is not running, with a host move to come. -/
def resting (program : List Int) (e : ExecState) (host : List HostMove) : State :=
  (State.fresh Params.reference program [] host).withSt e

theorem witness_StateTransitions :
    (∃ t, step (resting [99] .idle [.run]) = .next t ∧ t.st = .running ∧ (resting [99] .idle [.run]).st ≠ .running) ∧
    (∃ t, step (resting [99] .suspendedOnInput [.run]) = .next t ∧ t.st = .running) ∧
    (∃ t, step (resting [99] .halted [.new [4]]) = .next t ∧ t.st = .idle ∧
      (resting [99] .halted [.new [4]]).st ≠ .idle) ∧
    (∃ t, step (refEngine [3, 0] []) = .next t ∧ t.st = .suspendedOnInput) ∧
    (∃ t, step (refEngine [12399] []) = .next t ∧ t.st = .halted) ∧
    (∃ t, step (refEngine [0] []) = .next t ∧ t.st = .failed ∧ (refEngine [0] []).st ≠ .failed) ∧
    (∃ t, step (resting [99] .failed [.run]) = .next t ∧ (resting [99] .failed [.run]).st = .failed) :=
  ⟨⟨_, rfl, rfl, by decide⟩, ⟨_, rfl, rfl⟩, ⟨_, rfl, rfl, by decide⟩, ⟨_, rfl, rfl⟩, ⟨_, rfl, rfl⟩,
    ⟨_, rfl, rfl, by decide⟩, ⟨_, rfl, rfl⟩⟩
theorem witness_ParametersFixed : ∃ t, step (engine bits8 [104, 5] []) = .next t := ⟨_, rfl⟩
theorem witness_AgentsTakeTurns : ((refEngine [104, 5] []).withHost [.run]).st = .running ∧
    (∃ t, step ((refEngine [104, 5] []).withHost [.run]) = .next t) ∧
    (resting [99] .halted []).st ≠ .running ∧ (resting [99] .halted []).host = [] := ⟨rfl, ⟨_, rfl⟩, by decide, rfl⟩
theorem witness_HostWritesOnlyByNew_run : (∃ t, step (resting [3, 0] .suspendedOnInput [.run]) = .next t) ∧
    (resting [3, 0] .suspendedOnInput [.queue [7]]).host.head? ≠ some .run := ⟨⟨_, rfl⟩, by decide⟩
theorem witness_HostWritesOnlyByNew : (resting [3, 0] .suspendedOnInput [.queue [7]]).st ≠ .running ∧
    (∃ t, step (resting [3, 0] .suspendedOnInput [.queue [7]]) = .next t) ∧
    ∀ program, (resting [3, 0] .suspendedOnInput [.queue [7]]).host.head? ≠ some (.new program) :=
  ⟨by decide, ⟨_, rfl⟩, (by intro p h; cases h)⟩

/-- A running engine at the limits of both parameters meets the invariant. -/
theorem witness_StepKeepsInvariant :
    (let s := engine { cellBits := some 8, addrMax := some 15 } [104, -128, 127] [127]
     Inv s ∧ ∃ t, step s = .next t) :=
  ⟨{ paramsWf := rfl, memWf := rfl, cellsExist := by decide, capBounded := (by intro m h; cases h; decide),
     cellsFit := by decide, rbFits := by decide, outFits := by decide, inqFits := by decide }, _, rfl⟩

/-! ### Witnesses for the statements about construction and invocation -/

/-- The longest program `ADDR_MAX = 1` takes, with the least and the greatest value of 8 bits. -/
theorem witness_NewBuildsResetState :
    (let s := (State.fresh { cellBits := some 8, addrMax := some 1 } [] [] [.new [-128, 127]]).withSt .halted
     s.st ≠ .running ∧ s.host = .new [-128, 127] :: [] ∧ (∀ v ∈ [-128, 127], fits s.params v = true) ∧
       ∀ m, s.params.addrMax = some m → [-128, 127].length ≤ m + 1) :=
  ⟨by decide, rfl, by decide, (by intro m h; cases h; decide)⟩
theorem witness_UnrepresentableRefused :
    (let s := State.fresh bits8 [] [] [.new [5, 128]]
     s.st ≠ .running ∧ 128 ∈ [5, 128] ∧ fits s.params 128 = false ∧ s.host = .new [5, 128] :: []) ∧
    (let s := State.fresh bits8 [] [] [.queue [-129]]
     s.st ≠ .running ∧ -129 ∈ [-129] ∧ fits s.params (-129) = false ∧ s.host = .queue [-129] :: []) := by decide
/-- V72's value as an input of 8-bit cells: `run` refuses it (48_run_protocol.md R218). -/
theorem test_run_refuses : runCall 1 [5, -129] (State.fresh bits8 [3, 2, 99] [] []) =
    .refused (.unrepresentableInput (-129)) := by decide
theorem witness_RunEntry : (resting [99] .idle [.run]).st = .idle ∧ (resting [99] .idle [.run]).host = .run :: [] ∧
    (resting [99] .suspendedOnInput [.run]).st = .suspendedOnInput := ⟨rfl, rfl, rfl⟩
theorem witness_TerminalRunIsNoOp :
    (let s := (State.fresh bits8 [99] [] []).withSt .halted
     (∀ v ∈ [127, -128], fits s.params v = true) ∧ s.st = .halted) ∧
    (let s := (State.fresh bits8 [0] [] []).withSt .failed
     (∀ v ∈ [], fits s.params v = true) ∧ s.st = .failed) := by decide
theorem witness_QueueMoveFillsQueue :
    (let s := (State.fresh bits8 [3, 0] [4] [.queue [127, -128], .run]).withSt .suspendedOnInput
     s.st ≠ .running ∧ s.host = .queue [127, -128] :: [.run] ∧ ∀ v ∈ [127, -128], fits s.params v = true) := by decide
/-- V7 on 8-bit cells, with the greatest input. -/
theorem witness_RunKeepsInvariant :
    (let s := State.fresh bits8 [3, 0, 99] [] []
     Inv s ∧ ∃ t, runCall 2 [127] s = .returned t [] .ok) :=
  ⟨{ paramsWf := rfl, memWf := rfl, cellsExist := by decide, capBounded := (by intro m h; cases h),
     cellsFit := by decide, rbFits := by decide, outFits := by decide, inqFits := by decide }, _, rfl⟩
/-- V46, V56, V61, and the queue of V47. -/
theorem witness_RunReturnsStatusOfStop : (∃ t, runCall 1 [1, 2] (resting [99] .idle []) = .returned t [] .ok) ∧
    (∃ t, runCall 2 [] (resting [104, 11, 3, 7] .idle []) = .returned t [11] .needsInput) ∧
    (∃ t, runCall 2 [] (resting [104, 5, 0] .idle []) = .returned t [5] .invalidOpcode) := ⟨⟨_, rfl⟩, ⟨_, rfl⟩, ⟨_, rfl⟩⟩
theorem witness_QueueRemainder : (∃ t, runCall 2 [5, 6] (resting [3, 5, 99] .idle []) = .returned t [] .ok) ∧
    (∃ t, runCall 2 [5] (resting [3, 9, 3, 9] .idle []) = .returned t [] .needsInput) := ⟨⟨_, rfl⟩, ⟨_, rfl⟩⟩
theorem witness_OutputOnlyGrows : ((refEngine [104, 5, 99] []).withOut [4]).st = .running ∧
    ∃ t, runLoop 2 ((refEngine [104, 5, 99] []).withOut [4]) = .returned t [4, 5] .ok := ⟨rfl, _, rfl⟩
theorem witness_ResumeRepeatsIn :
    (let s := (State.fresh max15 [3, 0, 4, 0, 99] [] []).withSt .suspendedOnInput
     s.mem.wf = true ∧ s.st = .suspendedOnInput ∧ (∀ m, s.params.addrMax = some m → s.pc ≤ m) ∧
       decode s.word = .ok (.inp .position) ∧ destFault s 1 .position = none) :=
  ⟨rfl, rfl, (by intro m h; cases h; decide), rfl, by decide⟩
theorem witness_MoreFuelSameReturn : ∃ t, runLoop 1 (refEngine [99] []) = .returned t [] .ok := ⟨_, rfl⟩
theorem witness_PeekReadsCell :
    (let s := resting [99] .halted []
     s.st ≠ .running ∧ Inv s ∧ s.cap ≤ 1) ∧ ((resting [99] .halted []).st ≠ .running ∧ (-1 : Int) < 0) ∧
    (refEngine [99] []).st = .running :=
  ⟨⟨by decide, { paramsWf := rfl, memWf := rfl, cellsExist := by decide, capBounded := (by intro m h; cases h),
                 cellsFit := by decide, rbFits := by decide, outFits := by decide, inqFits := by decide }, by decide⟩,
    by decide, rfl⟩

/-! ### Witnesses for the statements beside the engine -/

/-- U11 of 93_implementation_defined.md. -/
theorem test_run_while_running : runCall 9 [] (refEngine [99] []) = .refused .runWhileRunning := by decide
theorem witness_RunWhileRunningRefused :
    (let r := EngineRing.mk [resting [99] .idle [], refEngine [99] []] 1
     (refEngine [99] []).st = .running ∧ engineAt r.turn r.engines = some (refEngine [99] []) ∧
       (PortState.mk (refEngine [99] []) [] true).engine.st = .running) := by decide
/-- A ring of three: `InvalidOpcode`, `NeedsInput`, `Ok` of an engine that is not last, `Ok` of the last, and each other outcome. -/
theorem witness_RingForwardsOrAborts :
    (let r := EngineRing.mk [resting [0] .idle [], resting [104, 5, 3, 9] .idle [], resting [104, 8, 99] .idle []]
     (∃ e t, engineAt 0 (r 0).engines = some e ∧ runCall 1 e.inq e = .returned t [] .invalidOpcode) ∧
     (∃ e t, engineAt 1 (r 1).engines = some e ∧ runCall 2 e.inq e = .returned t [5] .needsInput) ∧
     (∃ e t, engineAt 2 (r 2).engines = some e ∧ runCall 2 e.inq e = .returned t [8] .ok ∧ 2 + 1 = (r 2).engines.length)) ∧
    (let r := EngineRing.mk [resting [99] .idle [], resting [4, -1] .idle [], State.fresh bits8 [3, 0] [128] []]
     (∃ e t, engineAt 0 (r 0).engines = some e ∧ runCall 1 e.inq e = .returned t [] .ok ∧ 0 + 1 ≠ (r 0).engines.length) ∧
     (∃ e, engineAt 1 (r 1).engines = some e ∧ runCall 1 e.inq e = .fault (.negativeAddress (-1))) ∧
     (∃ e, engineAt 2 (r 2).engines = some e ∧ runCall 1 e.inq e = .refused (.unrepresentableInput 128)) ∧
     (∃ e t, engineAt 0 (r 0).engines = some e ∧ runCall 0 e.inq e = .unfinished t)) :=
  ⟨⟨⟨_, _, rfl, rfl⟩, ⟨_, _, rfl, rfl⟩, ⟨_, _, rfl, rfl, rfl⟩⟩,
    ⟨_, _, rfl, rfl, by decide⟩, ⟨_, rfl, rfl⟩, ⟨_, rfl, rfl⟩, ⟨_, _, rfl, rfl⟩⟩

/-- The last engine halts: its last output is the result, and the first engine has it too (48_run_protocol.md R214). -/
theorem test_ring_done : (match ringTurn 2 (EngineRing.mk [resting [3, 0] .idle [], resting [104, 8, 99] .idle []] 1) with
    | .done result r => (result, r.turn, r.engines.map (fun e => e.inq))
    | _ => (none, 9, [])) = (some 8, 0, [[8], []]) := by decide

/-- Two's complement, most significant bit first (20_memory.md R59): 127, -128 and -2 on 8-bit ports. -/
theorem test_port_words :
    portWord bits8 127 = .bits [false, true, true, true, true, true, true, true] ∧
    portWord bits8 (-128) = .bits [true, false, false, false, false, false, false, false] ∧
    portWord bits8 (-2) = .bits [true, true, true, true, true, true, true, false] ∧
    portValue bits8 (.bits [true, true, true, true, true, true, true, false]) = .ok (-2) ∧
    portValue bits8 (.bits [true, false]) = .error .portWordWidth := ⟨by decide, by decide, by decide, rfl, rfl⟩

/-- The inputs of a sampling at which no program cell is offered. -/
def ports (start inValid : Bool) (inData : PortWord) : PortIn :=
  { loadValid := false, loadData := inData, loadLast := false, start := start, inValid := inValid, inData := inData,
    peekAddr := 0 }

/-- The words 6 and 7 on an 8-bit port. -/
def low (b : Bool) : PortWord := .bits [false, false, false, false, false, true, true, b]

/-- The last program cell, 6, on an 8-bit port, beside a `start`. -/
def lastCell : PortIn :=
  { ports true false (low true) with loadValid := true, loadData := low false, loadLast := true, peekAddr := 1 }

/-- `load_last` completes `new` (48_run_protocol.md R220). -/
theorem test_port_load : (match portStep lastCell (PortState.mk (State.fresh bits8 [] [] []) [104] false) with
    | .next (q, o) => (q.engine.mem, q.loading, o.busy, o.peekData)
    | _ => ([], [], true, none)) = ([(0, 104), (1, 6)], [], false, some (low false)) := by decide

/-- A busy engine that suspends, and one that is started. -/
theorem witness_PortsFollowEngine :
    (∃ q o, portStep (ports false false (.integer 0)) (PortState.mk (refEngine [3, 0] []) [] true) = .next (q, o) ∧
      o.busy = false ∧ o.status = some 1#2) ∧
    (∃ q o, portStep (ports true false (.integer 0)) (PortState.mk (resting [99] .idle []) [] false) = .next (q, o) ∧
      o.busy = true) :=
  ⟨⟨_, _, rfl, by decide, by decide⟩, _, _, rfl, by decide⟩
theorem witness_PortWordsRoundTrip : (bits8.wf = true ∧ fits bits8 (-128) = true ∧ fits bits8 127 = true) ∧
    (Params.reference.wf = true ∧ fits Params.reference (-129) = true) ∧
    (bits8.cellBits = some 8 ∧ (true :: [false, false, false, false, false, false, false]).length = 8) := by decide
theorem witness_PortsKeepInvariant :
    (let p := PortState.mk (engine bits8 [3, 0] []) [] true
     Inv p.engine ∧ ∃ q o, portStep (ports false true (low true)) p = .next (q, o)) :=
  ⟨{ paramsWf := rfl, memWf := rfl, cellsExist := by decide, capBounded := (by intro m h; cases h),
     cellsFit := by decide, rbFits := by decide, outFits := by decide, inqFits := by decide }, _, _, rfl⟩
/-- An IN with a value on the port and one without, and an OUT. -/
theorem witness_PortsRunEngine :
    (let p := PortState.mk (engine bits8 [3, 0] []) [] true
     p.engine.st = .running ∧ (ports false true (low true)).inValid = true ∧
       portValue p.engine.params (ports false true (low true)).inData = .ok 7 ∧
       ∃ t, step (p.engine.withInq [7]) = .next t ∧ t.inq = []) ∧
    (let p := PortState.mk (engine bits8 [3, 0] []) [] true
     (ports false false (low true)).inValid = false ∧
       ∃ t, step (p.engine.withInq []) = .next t ∧ t.st = .suspendedOnInput) ∧
    (let p := PortState.mk (engine bits8 [104, -2] []) [] true
     ∃ t, step (p.engine.withInq []) = .next t ∧ t.out = p.engine.out ++ [-2]) :=
  ⟨⟨rfl, rfl, rfl, _, rfl, rfl⟩, ⟨rfl, _, rfl, rfl⟩, _, rfl, rfl⟩

end Sys2Proof.Tests
end

/-! Memory references case by case (20_memory.md R53 to R58): which fault an address raises, when the capacity stays
put, what an unlisted cell reads as; and from these the outcomes of a read. -/

namespace Sys2Proof.Machine

/-- An address below 0 faults first, whatever `ADDR_MAX` is (R58). -/
theorem addressFault_of_neg {p : Params} {a : Int} (h : a < 0) : addressFault p a = some (.negativeAddress a) := by
  simp [addressFault, h]

/-- An address above a finite `ADDR_MAX` is not negative, so it raises the second fault (R57). -/
theorem addressFault_of_above {p : Params} {a : Int} {m : Nat} (hm : p.addrMax = some m) (h : (m : Int) < a) :
    addressFault p a = some (.memoryExhausted a) := by
  have h0 : ¬ a < 0 := by omega
  simp [addressFault, aboveMax, hm, h0, h]

/-- A reference below the capacity does not move it (R53). -/
theorem capAfter_of_lt {p : Params} {cap a : Nat} (h : a < cap) : capAfter p cap a = cap := by
  simp [capAfter, h]

/-- A cell that nothing has set reads 0 (R54). -/
theorem State.cell_of_unlisted {s : State} {a : Nat} (h : ∀ v, (a, v) ∉ s.mem) : s.cell a = 0 :=
  (Memory.get_cases s.mem a).resolve_right (h _)

/-- A read that raises no fault, with the capacity it leaves named (R54). -/
theorem memRead_of_noFault {a : Int} {s : State} (h : addressFault s.params a = none) :
    memRead a s = .ok (s.cell a.toNat, s.withCap (capAfter s.params s.cap a.toNat)) := by
  simp [memRead, h, State.touch_eq]

end Sys2Proof.Machine

namespace Sys2Proof
open Sys2Proof.Machine

/-- Settles O8: the two ranges that fault by the fault of the address; in the range that does not, the capacity left
is `capAfter`, whose bounds are those of any reference. -/
theorem memReadOutcomes : Obligations.MemReadOutcomes := by
  intro s a
  refine ⟨fun hneg => memRead_fault (addressFault_of_neg hneg),
    fun m hm habove => memRead_fault (addressFault_of_above hm habove), fun h0 hmax => ?_⟩
  have hfault : addressFault s.params a = none := addressFault_none.2 ⟨h0, hmax⟩
  have hnat : addressFault s.params (a.toNat : Int) = none := by rwa [Int.toNat_of_nonneg h0]
  obtain ⟨hgrows, -⟩ := capMove_touch hnat
  exact ⟨capAfter s.params s.cap a.toNat, lt_capAfter hnat, hgrows, capAfter_of_lt, memRead_of_noFault hfault,
    State.cell_of_unlisted⟩

end Sys2Proof


/-! Parameters and `pc` (40_dispatch_and_parameters.md R114, R116): the modes an ADD word carries, by the weight of
their digits; and where each shape of instruction leaves `pc` when it completes. -/

namespace Sys2Proof
open Sys2Proof.Machine

/-- A word of opcode 1 is an ADD, with the modes of its digits (30_encoding.md R84, R91). -/
theorem decode_of_opcode_add {w : Nat} (h : opcodeOf w = 1) :
    decode (w : Int) = .ok (.add (modeOf w 1) (modeOf w 2) (modeOf w 3)) := by
  simp [decode_natCast, instrOf, h]

/-- Settles O4: the formula is the model's definition, and in a word composed of digits `wordOf_digits` reads off the
opcode and the three modes. -/
theorem modeDigitsByWeight : Obligations.ModeDigitsByWeight := by
  refine ⟨fun w k => rfl, fun a b c high ha hb hc => ?_⟩
  change decode ((wordOf 1 a b c + 100000 * high : Nat) : Int) = _
  obtain ⟨hop, hA, hB, hC⟩ := wordOf_digits (op := 1) (by decide) ha hb hc high
  rw [decode_of_opcode_add hop]
  simp only [modeOf, hA, hB, hC]

end Sys2Proof

namespace Sys2Proof.Machine

/-- A storing instruction that completes has 4 cells behind it (R114). -/
theorem storeResult_pc {f : Params → Int → Int → Except Fault Int} {s t : State} {a b d : Mode}
    (h : finish (storeResult f a b d s) = .next t) : t.pc = s.pc + 4 := by
  obtain ⟨-, r, c, -, -, -, rfl⟩ := storeResult_next (finish_next.1 h)
  rfl

/-- A jump that completes is at its target, which is then no negative number, or 3 cells on (R114, R163). -/
theorem jumpWhen_pc {taken : Int → Bool} {s t : State} {a g : Mode} (h : finish (jumpWhen taken a g s) = .next t) :
    (t.pc : Int) = if taken (sourceValue s 1 a) = true then sourceValue s 2 g else s.pc + 3 := by
  obtain ⟨-, c, -, ⟨htaken, hnonneg, rfl⟩ | ⟨hnot, rfl⟩⟩ := jumpWhen_next (finish_next.1 h)
  · simp [htaken, Int.toNat_of_nonneg hnonneg]
  · simp [hnot]

/-- IN stays where it suspends and is otherwise 2 cells on (R114). -/
theorem execIn_pc {s t : State} {d : Mode} (h : execIn d s = .next t) :
    t.pc = if s.inq = [] then s.pc else s.pc + 2 := by
  obtain ⟨-, c, -, ⟨hempty, rfl⟩ | ⟨v, rest, hfront, -, rfl⟩⟩ := execIn_next h
  · simp [hempty]
  · simp [hfront]

/-- OUT that completes is 2 cells on (R114). -/
theorem execOut_pc {s t : State} {a : Mode} (h : execOut a s = .next t) : t.pc = s.pc + 2 := by
  obtain ⟨-, c, -, rfl⟩ := execOut_next h
  rfl

/-- ARB that completes is 2 cells on (R114). -/
theorem execArb_pc {s t : State} {a : Mode} (h : execArb a s = .next t) : t.pc = s.pc + 2 := by
  obtain ⟨-, -, c, -, rfl⟩ := execArb_next h
  rfl

/-- HALT stays at its word (R114, R185). -/
theorem execHalt_pc {s t : State} (h : execHalt s = .next t) : t.pc = s.pc := by
  cases h
  rfl

end Sys2Proof.Machine

namespace Sys2Proof
open Sys2Proof.Machine

/-- Settles O24: one lemma per shape of instruction; for the jumps, the tested `Bool` is read as the statement's
comparison with 0. -/
theorem pcUpdate : Obligations.PcUpdate := by
  refine ⟨fun i s t h => ?_, fun s => rfl⟩
  cases i with
  | add _ _ _ | mul _ _ _ | lt _ _ _ | eq _ _ _ => exact storeResult_pc h
  | inp _ => exact execIn_pc h
  | out _ => exact execOut_pc h
  | jnz _ _ => simpa only [nonzero, decide_eq_true_eq] using jumpWhen_pc h
  | jz _ _ => simpa only [isZero, decide_eq_true_eq] using jumpWhen_pc h
  | arb _ => exact execArb_pc h
  | halt => exact execHalt_pc h

end Sys2Proof


/-! ADD and MUL (41_arithmetic.md R140, R141, R144): both store the checked result of an exact operation on their
sources, so what they do is said once, for any operation `op`. -/

namespace Sys2Proof.Machine

/-- Steps in order raise the first fault of the earlier ones, and only then that of the last (R236). -/
theorem firstFault_concat (earlier : List (Option Fault)) (last : Option Fault) :
    firstFault (earlier ++ [last]) = (firstFault earlier).or last := by
  induction earlier with
  | nil => cases last <;> rfl
  | cons x rest ih => cases x <;> simp [firstFault, ih]

theorem overflowFault_none {s : State} {r : Int} : overflowFault s r = none ↔ fits s.params r = true := by
  simp [overflowFault]

theorem overflowFault_some {s : State} {r : Int} {f : Fault} :
    overflowFault s r = some f ↔ fits s.params r = false ∧ .overflow r = f := by
  cases hfits : fits s.params r <;> simp [overflowFault, hfits]

/-- A storing instruction whose parameters resolve and whose result is `r` completes: `r` is in the destination cell,
`pc` is 4 cells on, and of the rest only the capacity may have grown. -/
theorem storeResult_stores {f : Params → Int → Int → Except Fault Int} {s : State} {a b d : Mode} {r : Int}
    (hwf : s.mem.wf = true) (hparams : firstFault [sourceFault s 1 a, sourceFault s 2 b, destFault s 3 d] = none)
    (hresult : f s.params (sourceValue s 1 a) (sourceValue s 2 b) = .ok r) :
    ∃ t, finish (storeResult f a b d s) = .next t ∧ t.cell (destAddress s 3 d) = r ∧
      KeepsCellsBut (destAddress s 3 d) s t ∧ t.pc = s.pc + 4 ∧ KeepsRegisters s t ∧ s.cap ≤ t.cap := by
  obtain ⟨-, hstores⟩ := storeResult_value (f := f) hparams
  obtain ⟨c, ⟨hgrows, -⟩, -, hstore⟩ := hstores r hresult
  exact ⟨_, finish_next.2 hstore, Memory.get_set_same hwf _ r, fun _ hother => Memory.get_set_other r hother, rfl,
    ⟨rfl, rfl, rfl, rfl, rfl, rfl⟩, hgrows⟩

/-- An instruction that stores a checked result completes where neither a parameter nor the check raises a fault. -/
theorem storeChecked_stores (op : Int → Int → Int) {s : State} {a b d : Mode} (hwf : s.mem.wf = true)
    (hnone : firstFault [sourceFault s 1 a, sourceFault s 2 b, destFault s 3 d,
      overflowFault s (op (sourceValue s 1 a) (sourceValue s 2 b))] = none) :
    ∃ t, finish (storeResult (fun p x y => check p (op x y)) a b d s) = .next t ∧
      t.cell (destAddress s 3 d) = op (sourceValue s 1 a) (sourceValue s 2 b) ∧
      KeepsCellsBut (destAddress s 3 d) s t ∧ t.pc = s.pc + 4 ∧ KeepsRegisters s t ∧ s.cap ≤ t.cap := by
  obtain ⟨ha, hb, hd, hcheck, -⟩ := by simpa only [firstFault_cons] using hnone
  exact storeResult_stores hwf (by simp [ha, hb, hd]) (check_ok.2 ⟨overflowFault_none.1 hcheck, rfl⟩)

/-- An instruction that stores a checked result raises its first fault: a parameter's, or else `Overflow`. -/
theorem storeChecked_faults (op : Int → Int → Int) {s : State} {a b d : Mode} {f : Fault}
    (hsome : firstFault [sourceFault s 1 a, sourceFault s 2 b, destFault s 3 d,
      overflowFault s (op (sourceValue s 1 a) (sourceValue s 2 b))] = some f) :
    finish (storeResult (fun p x y => check p (op x y)) a b d s) = .fault f := by
  have hfirst := (firstFault_concat [sourceFault s 1 a, sourceFault s 2 b, destFault s 3 d] _).symm.trans hsome
  rcases Option.or_eq_some_iff.1 hfirst with hparam | ⟨hparams, hoverflow⟩
  · exact finish_fault.2 (storeResult_fault hparam)
  · obtain ⟨hfaults, -⟩ := storeResult_value hparams
    exact finish_fault.2 (hfaults f (check_error.2 (overflowFault_some.1 hoverflow)))

end Sys2Proof.Machine

namespace Sys2Proof
open Sys2Proof.Machine

/-- A word of opcode 2 is a MUL, with the modes of its digits (30_encoding.md R84, R91). -/
theorem decode_of_opcode_mul {w : Nat} (h : opcodeOf w = 2) :
    decode (w : Int) = .ok (.mul (modeOf w 1) (modeOf w 2) (modeOf w 3)) := by
  simp [decode_natCast, instrOf, h]

/-- Settles O11: ADD stores the checked sum. -/
theorem addStoresSum : Obligations.AddStoresSum :=
  ⟨fun _ hop => decode_of_opcode_add hop, fun _ _ _ _ hwf =>
    ⟨storeChecked_stores (fun x y => x + y) hwf, fun _ => storeChecked_faults (fun x y => x + y)⟩⟩

/-- Settles O12: MUL stores the checked product. -/
theorem mulStoresProduct : Obligations.MulStoresProduct :=
  ⟨fun _ hop => decode_of_opcode_mul hop, fun _ _ _ _ hwf =>
    ⟨storeChecked_stores (fun x y => x * y) hwf, fun _ => storeChecked_faults (fun x y => x * y)⟩⟩

end Sys2Proof


/-! OUT (42_input_output.md R151, R152): the output sequence has no capacity, so nothing but the source can stop it. -/

namespace Sys2Proof
open Sys2Proof.Machine

/-- A word of opcode 4 is an OUT, with the mode of its digit (30_encoding.md R84, R91). -/
theorem decode_of_opcode_out {w : Nat} (h : opcodeOf w = 4) : decode (w : Int) = .ok (.out (modeOf w 1)) := by
  simp [decode_natCast, instrOf, h]

/-- OUT with a good source: the value is at the end of the output, `pc` is 2 cells on, no cell is written, and of the
rest only the capacity may have grown. -/
theorem execOut_appends {s : State} {a : Mode} (hsource : sourceFault s 1 a = none) :
    ∃ t, execOut a s = .next t ∧ t.out = s.out ++ [sourceValue s 1 a] ∧ t.pc = s.pc + 2 ∧ KeepsCells s t ∧
      t.rb = s.rb ∧ t.st = s.st ∧ t.inq = s.inq ∧ t.params = s.params ∧ t.host = s.host ∧ s.cap ≤ t.cap := by
  obtain ⟨c, ⟨hgrows, -⟩, hnext⟩ := execOut_value hsource
  exact ⟨_, hnext, rfl, rfl, fun _ => rfl, rfl, rfl, rfl, rfl, rfl, hgrows⟩

/-- Settles O17: OUT appends where its source resolves, and raises the source's fault where it does not. -/
theorem outAppendsValue : Obligations.OutAppendsValue :=
  ⟨fun _ hop => decode_of_opcode_out hop, fun _ _ => ⟨execOut_appends, fun _ => execOut_fault⟩⟩

end Sys2Proof


/-! JNZ and JZ (43_jumps.md R160, R161, R163): both jump where a test of the first value says so, so what they do is
said once, for any test `taken`. -/

namespace Sys2Proof.Machine

theorem targetFault_none {taken : Bool} {t : Int} : targetFault taken t = none ↔ (taken = true → 0 ≤ t) := by
  simp [targetFault]

theorem targetFault_some {taken : Bool} {t : Int} {f : Fault} :
    targetFault taken t = some f ↔ (taken = true ∧ t < 0) ∧ .negativeJumpTarget t = f := by
  simp [targetFault]

theorem exec_jnz (a g : Mode) (s : State) : exec (.jnz a g) s = finish (jumpWhen nonzero a g s) := rfl

theorem exec_jz (a g : Mode) (s : State) : exec (.jz a g) s = finish (jumpWhen isZero a g s) := rfl

/-- A jump completes where neither a parameter nor the target raises a fault: `pc` is at the target or 3 cells on, no
cell is written, and of the rest only the capacity may have grown. -/
theorem jumpWhen_jumps (taken : Int → Bool) {s : State} {a g : Mode}
    (hnone : firstFault [sourceFault s 1 a, sourceFault s 2 g,
      targetFault (taken (sourceValue s 1 a)) (sourceValue s 2 g)] = none) :
    ∃ t, finish (jumpWhen taken a g s) = .next t ∧
      (t.pc : Int) = (if taken (sourceValue s 1 a) = true then sourceValue s 2 g else s.pc + 3) ∧
      KeepsCells s t ∧ KeepsRegisters s t ∧ s.cap ≤ t.cap := by
  obtain ⟨ha, hg, htarget, -⟩ := by simpa only [firstFault_cons] using hnone
  have hparams : firstFault [sourceFault s 1 a, sourceFault s 2 g] = none := by simp [ha, hg]
  obtain ⟨c, ⟨hgrows, -⟩, hjump⟩ := jumpWhen_value (taken := taken) hparams
  cases htaken : taken (sourceValue s 1 a) with
  | true =>
    have hnonneg : 0 ≤ sourceValue s 2 g := targetFault_none.1 htarget htaken
    rw [if_pos htaken, if_neg (Int.not_lt.2 hnonneg)] at hjump
    exact ⟨_, finish_next.2 hjump, Int.toNat_of_nonneg hnonneg, fun _ => rfl, ⟨rfl, rfl, rfl, rfl, rfl, rfl⟩, hgrows⟩
  | false =>
    rw [if_neg (Bool.eq_false_iff.1 htaken)] at hjump
    exact ⟨_, finish_next.2 hjump, rfl, fun _ => rfl, ⟨rfl, rfl, rfl, rfl, rfl, rfl⟩, hgrows⟩

/-- A jump raises its first fault: a parameter's, taken or not, or else `NegativeJumpTarget` where it is taken. -/
theorem jumpWhen_faults (taken : Int → Bool) {s : State} {a g : Mode} {f : Fault}
    (hsome : firstFault [sourceFault s 1 a, sourceFault s 2 g,
      targetFault (taken (sourceValue s 1 a)) (sourceValue s 2 g)] = some f) :
    finish (jumpWhen taken a g s) = .fault f := by
  have hfirst := (firstFault_concat [sourceFault s 1 a, sourceFault s 2 g] _).symm.trans hsome
  rcases Option.or_eq_some_iff.1 hfirst with hparam | ⟨hparams, htarget⟩
  · exact finish_fault.2 (jumpWhen_fault hparam)
  · obtain ⟨⟨htaken, hneg⟩, rfl⟩ := targetFault_some.1 htarget
    obtain ⟨c, -, hjump⟩ := jumpWhen_value (taken := taken) hparams
    rw [if_pos htaken, if_pos hneg] at hjump
    exact finish_fault.2 hjump

end Sys2Proof.Machine

namespace Sys2Proof
open Sys2Proof.Machine

/-- A word of opcode 5 is a JNZ, with the modes of its digits (30_encoding.md R84, R91). -/
theorem decode_of_opcode_jnz {w : Nat} (h : opcodeOf w = 5) :
    decode (w : Int) = .ok (.jnz (modeOf w 1) (modeOf w 2)) := by
  simp [decode_natCast, instrOf, h]

/-- A word of opcode 6 is a JZ, with the modes of its digits (30_encoding.md R84, R91). -/
theorem decode_of_opcode_jz {w : Nat} (h : opcodeOf w = 6) :
    decode (w : Int) = .ok (.jz (modeOf w 1) (modeOf w 2)) := by
  simp [decode_natCast, instrOf, h]

/-- Settles O18: JNZ is the jump whose test is `nonzero`, read as the statement's comparison with 0. -/
theorem jnzJumpsWhenNonzero : Obligations.JnzJumpsWhenNonzero := by
  refine ⟨fun _ hop => decode_of_opcode_jnz hop, fun s a g => ⟨fun hnone => ?_, fun _ => jumpWhen_faults nonzero⟩⟩
  simpa only [exec_jnz, nonzero, decide_eq_true_eq] using jumpWhen_jumps nonzero hnone

/-- Settles O19: JZ is the jump whose test is `isZero`, read as the statement's comparison with 0. -/
theorem jzJumpsWhenZero : Obligations.JzJumpsWhenZero := by
  refine ⟨fun _ hop => decode_of_opcode_jz hop, fun s a g => ⟨fun hnone => ?_, fun _ => jumpWhen_faults isZero⟩⟩
  simpa only [exec_jz, isZero, decide_eq_true_eq] using jumpWhen_jumps isZero hnone

end Sys2Proof


/-! LT and EQ (44_compare.md R170, R171): both store a truth value that no check can stop, so only a parameter can
raise a fault. -/

namespace Sys2Proof.Machine

/-- A storing instruction raises the first fault of its parameters, whatever its result is. -/
theorem storeResult_faults {f : Params → Int → Int → Except Fault Int} {s : State} {a b d : Mode} {g : Fault}
    (hparam : firstFault [sourceFault s 1 a, sourceFault s 2 b, destFault s 3 d] = some g) :
    finish (storeResult f a b d s) = .fault g := finish_fault.2 (storeResult_fault hparam)

theorem lessThan_eq_ite (x y : Int) : lessThan x y = if x < y then 1 else 0 := by simp [lessThan, truthValue]

theorem equalTo_eq_ite (x y : Int) : equalTo x y = if x = y then 1 else 0 := by simp [equalTo, truthValue]

theorem exec_lt (a b d : Mode) (s : State) :
    exec (.lt a b d) s = finish (storeResult (fun _ x y => .ok (lessThan x y)) a b d s) := rfl

theorem exec_eq (a b d : Mode) (s : State) :
    exec (.eq a b d) s = finish (storeResult (fun _ x y => .ok (equalTo x y)) a b d s) := rfl

end Sys2Proof.Machine

namespace Sys2Proof
open Sys2Proof.Machine

/-- A word of opcode 7 is an LT, with the modes of its digits (30_encoding.md R84, R91). -/
theorem decode_of_opcode_lt {w : Nat} (h : opcodeOf w = 7) :
    decode (w : Int) = .ok (.lt (modeOf w 1) (modeOf w 2) (modeOf w 3)) := by
  simp [decode_natCast, instrOf, h]

/-- A word of opcode 8 is an EQ, with the modes of its digits (30_encoding.md R84, R91). -/
theorem decode_of_opcode_eq {w : Nat} (h : opcodeOf w = 8) :
    decode (w : Int) = .ok (.eq (modeOf w 1) (modeOf w 2) (modeOf w 3)) := by
  simp [decode_natCast, instrOf, h]

/-- Settles O13: LT stores the result `lessThan`, which is never a fault, so its faults are its parameters'. -/
theorem ltStoresTruthValue : Obligations.LtStoresTruthValue := by
  refine ⟨fun _ hop => decode_of_opcode_lt hop, fun s a b d hwf => ⟨fun hparams => ?_, fun _ => storeResult_faults⟩⟩
  rw [exec_lt, ← lessThan_eq_ite]
  exact storeResult_stores hwf hparams rfl

/-- Settles O14: EQ stores the result `equalTo`, which is never a fault, so its faults are its parameters'. -/
theorem eqStoresTruthValue : Obligations.EqStoresTruthValue := by
  refine ⟨fun _ hop => decode_of_opcode_eq hop, fun s a b d hwf => ⟨fun hparams => ?_, fun _ => storeResult_faults⟩⟩
  rw [exec_eq, ← equalTo_eq_ite]
  exact storeResult_stores hwf hparams rfl

end Sys2Proof


/-! ARB (45_relative_base.md R180, R181): the source is resolved in the starting state, so through the old `rb`, and
only then is the sum checked and put in `rb`. -/

namespace Sys2Proof.Machine

/-- A single step raises its own fault (60_exceptions.md R236). -/
theorem firstFault_singleton (x : Option Fault) : firstFault [x] = x := by cases x <;> rfl

/-- ARB whose source resolves and whose sum fits: `rb` has moved by the value, `pc` is 2 cells on, no cell is written,
and of the rest only the capacity may have grown. -/
theorem execArb_adds {s : State} {a : Mode}
    (hnone : firstFault [sourceFault s 1 a, overflowFault s (s.rb + sourceValue s 1 a)] = none) :
    ∃ t, execArb a s = .next t ∧ t.rb = s.rb + sourceValue s 1 a ∧ t.pc = s.pc + 2 ∧ KeepsCells s t ∧
      t.st = s.st ∧ t.out = s.out ∧ t.inq = s.inq ∧ t.params = s.params ∧ t.host = s.host ∧ s.cap ≤ t.cap := by
  obtain ⟨hsource, hoverflow, -⟩ := by simpa only [firstFault_cons] using hnone
  obtain ⟨-, hadds⟩ := execArb_value hsource
  obtain ⟨c, ⟨hgrows, -⟩, hnext⟩ := hadds (overflowFault_none.1 hoverflow)
  exact ⟨_, hnext, rfl, rfl, fun _ => rfl, rfl, rfl, rfl, rfl, rfl, hgrows⟩

/-- ARB raises its first fault: its source's, or else `Overflow`. -/
theorem execArb_faults {s : State} {a : Mode} {f : Fault}
    (hsome : firstFault [sourceFault s 1 a, overflowFault s (s.rb + sourceValue s 1 a)] = some f) :
    execArb a s = .fault f := by
  have hfirst := (firstFault_concat [sourceFault s 1 a] _).symm.trans hsome
  rw [firstFault_singleton] at hfirst
  rcases Option.or_eq_some_iff.1 hfirst with hsource | ⟨hsource, hoverflow⟩
  · exact execArb_fault hsource
  · obtain ⟨hunfit, rfl⟩ := overflowFault_some.1 hoverflow
    obtain ⟨hfaults, -⟩ := execArb_value hsource
    exact hfaults hunfit

end Sys2Proof.Machine

namespace Sys2Proof
open Sys2Proof.Machine

/-- A word of opcode 9 is an ARB, with the mode of its digit (30_encoding.md R84, R91). -/
theorem decode_of_opcode_arb {w : Nat} (h : opcodeOf w = 9) : decode (w : Int) = .ok (.arb (modeOf w 1)) := by
  simp [decode_natCast, instrOf, h]

/-- Settles O20: ARB adds where its source resolves and the sum fits, and raises the first fault where not. -/
theorem arbAddsToRelativeBase : Obligations.ArbAddsToRelativeBase :=
  ⟨fun _ hop => decode_of_opcode_arb hop, fun _ _ => ⟨execArb_adds, fun _ => execArb_faults⟩⟩

end Sys2Proof


/-! Invocation and the host's other moves (48_run_protocol.md R204, R213): what entry to `run` leaves of each field, and
what a host move other than `new` can come to. -/

namespace Sys2Proof.Machine

section Invoke
variable (s : State)
@[simp] theorem invoke_params : (invoke s).params = s.params := rfl
@[simp] theorem invoke_cap : (invoke s).cap = s.cap := rfl
@[simp] theorem invoke_pc : (invoke s).pc = s.pc := rfl
@[simp] theorem invoke_rb : (invoke s).rb = s.rb := rfl
@[simp] theorem invoke_st : (invoke s).st = s.st.entered := rfl
@[simp] theorem invoke_out : (invoke s).out = [] := rfl
@[simp] theorem invoke_inq : (invoke s).inq = s.inq := rfl
@[simp] theorem invoke_host : (invoke s).host = s.host := rfl
@[simp] theorem invoke_cell (a : Nat) : (invoke s).cell a = s.cell a := rfl
end Invoke

/-- The host's move `run` on an engine that is not running is its entry (R204). -/
theorem step_run {s : State} {rest : List HostMove} (hst : s.st ≠ .running) (hhost : s.host = .run :: rest) :
    step s = .next (invoke (s.withHost rest)) := by
  rw [step_host hst]
  simp [hostStep, hhost]

/-- A host step that is no `new` does nothing, fills the queue or invokes the engine (R213, R217). -/
theorem hostStep_next_of_not_new {s t : State} (hnext : hostStep s = .next t)
    (hnew : ∀ program, s.host.head? ≠ some (.new program)) :
    t = s ∨ (∃ values rest, t = (s.withHost rest).withInq values) ∨
      ∃ rest, s.host = .run :: rest ∧ t = invoke (s.withHost rest) := by
  rcases hostStep_cases s with ⟨-, hidle⟩ | ⟨program, rest, hhost, -⟩ |
    ⟨values, rest, -, ⟨v, -, hrefused⟩ | ⟨-, hfilled⟩⟩ | ⟨rest, hhost, hinvoked⟩
  · exact .inl (Host.Outcome.next.inj (hnext.symm.trans hidle))
  · exact absurd (congrArg List.head? hhost) (hnew program)
  · exact nomatch hnext.symm.trans hrefused
  · exact .inr (.inl ⟨values, rest, Host.Outcome.next.inj (hnext.symm.trans hfilled)⟩)
  · exact .inr (.inr ⟨rest, hhost, Host.Outcome.next.inj (hnext.symm.trans hinvoked)⟩)

end Sys2Proof.Machine

namespace Sys2Proof
open Sys2Proof.Machine

/-- Settles O38: of the three things a host step other than `new` can come to, only an invocation writes a field of the
engine, and then `out` and `st` alone. -/
theorem hostWritesOnlyByNew : Obligations.HostWritesOnlyByNew := by
  intro s t hst hstep hnew
  rw [step_host hst] at hstep
  rcases hostStep_next_of_not_new hstep hnew with rfl | ⟨values, rest, rfl⟩ | ⟨rest, hrun, rfl⟩
  · simp [KeepsCells]
  · simp [KeepsCells]
  · simp [KeepsCells, hrun]

/-- Settles O44: the step is the entry of `run`, and `entered` takes both `Idle` and `SuspendedOnInput` to `Running`. -/
theorem runEntry : Obligations.RunEntry := by
  intro s rest hst hhost
  have hrest : s.st ≠ .running := by rcases hst with h | h <;> simp [h]
  have hentered : s.st.entered = .running := by rcases hst with h | h <;> simp [h, ExecState.entered]
  exact ⟨_, step_run hrest hhost, by simp [KeepsCells, hentered]⟩

end Sys2Proof


/-! Words and instructions (30_encoding.md R80 to R92): the opcode and the modes of an instruction as functions of it,
what they say of the words that decode to it, and which words decode to none. -/

namespace Sys2Proof
open Sys2Proof.Machine

/-- The mode of parameter `k`; position for a parameter the instruction lacks, whose digit in its word is 0. -/
def Instr.mode : Instr → Nat → Mode
  | .add a _ _, 1 | .mul a _ _, 1 | .lt a _ _, 1 | .eq a _ _, 1 => a
  | .add _ b _, 2 | .mul _ b _, 2 | .lt _ b _, 2 | .eq _ b _, 2 => b
  | .add _ _ d, 3 | .mul _ _ d, 3 | .lt _ _ d, 3 | .eq _ _ d, 3 => d
  | .jnz a _, 1 | .jz a _, 1 | .out a, 1 | .arb a, 1 => a
  | .jnz _ target, 2 | .jz _ target, 2 => target
  | .inp d, 1 => d
  | _, _ => .position

/-- A word is an instruction's exactly where it has its opcode and, for each parameter the instruction has, its mode
(R84, R91). -/
theorem instrOf_eq_some {w : Nat} {i : Instr} :
    instrOf w = some i ↔ opcodeOf w = i.opcode ∧ ∀ k, 1 ≤ k → k < i.cells → modeOf w k = i.mode k := by
  constructor
  · intro h
    unfold instrOf at h
    split at h <;> cases h
    all_goals
      refine ⟨‹_›, fun k hk hc => ?_⟩
      simp only [Instr.cells] at hc
      interval_cases k <;> rfl
  · rintro ⟨hop, hmode⟩
    have h1 := hmode 1 (by decide)
    have h2 := hmode 2 (by decide)
    have h3 := hmode 3 (by decide)
    clear hmode
    cases i <;> simp_all [instrOf, Instr.opcode, Instr.cells, Instr.mode]

theorem decode_natCast_ok {w : Nat} {i : Instr} : decode (w : Int) = .ok i ↔ instrOf w = some i := by
  simp [decode_ok]

theorem Instr.opcode_lt (i : Instr) : i.opcode < 100 := by cases i <;> simp [Instr.opcode]

/-- An instruction's word is composed of its opcode and its modes' digits (R85). -/
theorem encode_eq_wordOf (i : Instr) :
    encode i = wordOf i.opcode (i.mode 1).digit (i.mode 2).digit (i.mode 3).digit := by cases i <;> rfl

/-- Settles O2: the word of an instruction is composed of its opcode and its modes' digits, `wordOf_digits` reads them
off again, and a mode is the mode of its digit. -/
theorem decodeEncodeAgree : Obligations.DecodeEncodeAgree := by
  intro i
  obtain ⟨hop, h1, h2, h3⟩ :=
    wordOf_digits i.opcode_lt (i.mode 1).digit_lt (i.mode 2).digit_lt (i.mode 3).digit_lt 0
  rw [← encode_eq_wordOf, Nat.mul_zero, Nat.add_zero] at hop h1 h2 h3
  refine decode_natCast_ok.2 (instrOf_eq_some.2 ⟨hop, fun k hk hc => ?_⟩)
  have hle : k ≤ 3 := by have := i.cells_range; omega
  interval_cases k <;> simp only [modeOf, h1, h2, h3, Mode.ofDigit_digit]

/-- Settles O5: the opcode and the modes of the parameters the instruction has are all that decoding looks at. -/
theorem unusedDigitsIgnored : Obligations.UnusedDigitsIgnored := by
  intro w w' i hdecode hop hdigit
  obtain ⟨hopcode, hmode⟩ := instrOf_eq_some.1 (decode_natCast_ok.1 hdecode)
  refine decode_natCast_ok.2 (instrOf_eq_some.2 ⟨hop.trans hopcode, fun k hk hc => ?_⟩)
  rw [modeOf, hdigit k hk hc]
  exact hmode k hk hc

/-- The ten opcode values (R84). -/
theorem Instr.opcode_mem (i : Instr) : i.opcode ∈ [1, 2, 3, 4, 5, 6, 7, 8, 9, 99] := by
  cases i <;> simp [Instr.opcode]

/-- A word of a defined opcode is an instruction. -/
theorem instrOf_isSome {w : Nat} (h : opcodeOf w ∈ [1, 2, 3, 4, 5, 6, 7, 8, 9, 99]) : ∃ i, instrOf w = some i := by
  unfold instrOf
  generalize opcodeOf w = op at h ⊢
  fin_cases h <;> exact ⟨_, rfl⟩

/-- Settles O6: an instruction has its word's opcode, each defined opcode has an instruction, and the constructor
gives the length. -/
theorem opcodeGivesInstructionAndLength : Obligations.OpcodeGivesInstructionAndLength := by
  have hopcode : ∀ {w : Nat} {i : Instr}, decode (w : Int) = .ok i → i.opcode = w % 100 := fun h =>
    (instrOf_eq_some.1 (decode_natCast_ok.1 h)).1.symm
  refine fun w => ⟨⟨fun ⟨i, h⟩ => hopcode h ▸ i.opcode_mem, fun h => ?_⟩, fun i h => ⟨hopcode h, ?_⟩⟩
  · simpa only [decode_natCast_ok] using instrOf_isSome h
  · rw [← hopcode h]
    cases i <;> rfl

/-- Settles O7. -/
theorem negativeWordsRejected : Obligations.NegativeWordsRejected := fun _ => decode_negative

/-- Settles O1: each word is non-negative, and its digits give the instruction. -/
theorem sampleWordsDecode : Obligations.SampleWordsDecode := by
  unfold Obligations.SampleWordsDecode
  decide

/-! ### The canonical words -/

/-- The legal modes of a source parameter (R81). -/
def sourceModes : List Mode := [.position, .immediate, .relative]

/-- The legal modes of a destination parameter (R81). -/
def destModes : List Mode := [.position, .relative]

theorem legalSource_iff {m : Mode} : m.legalSource = true ↔ m ∈ sourceModes := by
  cases m <;> simp [Mode.legalSource, sourceModes]

theorem legalDest_iff {m : Mode} : m.legalDest = true ↔ m ∈ destModes := by
  cases m <;> simp [Mode.legalDest, destModes]

/-- The well-formed instructions of two sources and a destination, in the order of the spec's table (R85). -/
def storingForms (f : Mode → Mode → Mode → Instr) : List Instr :=
  destModes.flatMap fun d => sourceModes.flatMap fun b => sourceModes.map fun a => f a b d

/-- The well-formed instructions of two sources, in the order of the spec's table (R85). -/
def jumpForms (f : Mode → Mode → Instr) : List Instr :=
  sourceModes.flatMap fun b => sourceModes.map fun a => f a b

/-- The well-formed instructions, in the order of the spec's table (R85). -/
def wellFormedInstrs : List Instr :=
  storingForms .add ++ storingForms .mul ++ destModes.map .inp ++ sourceModes.map .out ++ jumpForms .jnz ++
    jumpForms .jz ++ storingForms .lt ++ storingForms .eq ++ sourceModes.map .arb ++ [.halt]

theorem wellFormed_iff {i : Instr} : i.wellFormed = true ↔ i ∈ wellFormedInstrs := by
  cases i <;>
    simp [Instr.wellFormed, wellFormedInstrs, storingForms, jumpForms, legalSource_iff, legalDest_iff] <;> tauto

/-- Settles O3: the words of the well-formed instructions, listed in the table's order, are the table. -/
theorem canonicalWordsListed : Obligations.CanonicalWordsListed := by
  intro w
  simp only [wellFormed_iff]
  exact List.mem_map (f := encode) (l := wellFormedInstrs) |>.symm

/-! ### Words that are no instruction -/

/-- A word that is an instruction has that instruction's opcode in its last two digits. -/
theorem opcode_of_decode {w : Int} {i : Instr} (h : decode w = .ok i) : w % 100 = i.opcode := by
  obtain ⟨hnonneg, hinstr⟩ := decode_ok.1 h
  obtain ⟨n, rfl⟩ := Int.eq_ofNat_of_zero_le hnonneg
  obtain ⟨hop, -⟩ := instrOf_eq_some.1 hinstr
  rw [← hop]
  rfl

/-- A word is no instruction exactly where it is negative or has an undefined opcode (46_halt_and_invalid.md R187,
R188). -/
theorem invalidWord_iff {w : Int} : invalidWord w ↔ ∀ i, decode w ≠ .ok i := by
  constructor
  · rintro hinvalid i hi
    rcases hinvalid with hneg | hop
    · exact nomatch (decode_negative hneg).symm.trans hi
    · rw [opcode_of_decode hi] at hop
      exact hop (by exact_mod_cast List.mem_map_of_mem (f := Nat.cast) i.opcode_mem)
  · intro hnone
    by_cases hneg : w < 0
    · exact .inl hneg
    · obtain ⟨n, rfl⟩ := Int.eq_ofNat_of_zero_le (Int.not_lt.1 hneg)
      refine .inr fun hop => ?_
      have hdefined : opcodeOf n ∈ [1, 2, 3, 4, 5, 6, 7, 8, 9, 99] := by
        simp only [opcodeOf, List.mem_cons, List.not_mem_nil, or_false] at hop ⊢
        omega
      obtain ⟨i, hi⟩ := instrOf_isSome hdefined
      exact hnone i (decode_natCast_ok.2 hi)

end Sys2Proof


/-! What an instruction that completes has done (40_dispatch_and_parameters.md R113, R114), said once for all ten, and
the frame rules that follow from it. -/

namespace Sys2Proof.Machine

/-- What a completed instruction has done to the state it started in: one of seven effects, each beside a move of the
capacity. -/
inductive Completed (i : Instr) (s : State) : State → Prop
  /-- ADD, MUL, LT and EQ store a value, which is representable or a truth value. -/
  | stored {c e : Nat} {v : Int} (hcap : CapMove s c) (hlt : e < c)
      (hok : addressFault s.params (e : Int) = none) (hto : storedTo i s = some e)
      (hvalue : storedValue i s = some v) (hfits : fits s.params v = true ∨ v = 0 ∨ v = 1) :
      Completed i s (((s.withCap c).withMem (s.mem.set e v)).advance 4)
  /-- IN takes the front value. -/
  | took {c : Nat} {d : Mode} {v : Int} {rest : List Int} (hi : i = .inp d) (hcap : CapMove s c)
      (hlt : destAddress s 1 d < c) (hok : addressFault s.params (destAddress s 1 d : Int) = none)
      (hfront : s.inq = v :: rest) :
      Completed i s ((((s.withCap c).withInq rest).withMem (s.mem.set (destAddress s 1 d) v)).advance 2)
  /-- IN suspends. -/
  | suspended {c : Nat} {d : Mode} (hi : i = .inp d) (hcap : CapMove s c) (hempty : s.inq = []) :
      Completed i s ((s.withCap c).withSt .suspendedOnInput)
  /-- OUT appends its source. -/
  | output {c : Nat} {a : Mode} (hi : i = .out a) (hcap : CapMove s c) :
      Completed i s (((s.withCap c).push (sourceValue s 1 a)).advance 2)
  /-- JNZ and JZ move `pc`, to a target or past themselves. -/
  | jumped {c n : Nat} (hcap : CapMove s c) (hto : storedTo i s = none) :
      Completed i s ((s.withCap c).withPc n)
  /-- ARB moves `rb`. -/
  | moved {c : Nat} {a : Mode} (hi : i = .arb a) (hcap : CapMove s c)
      (hfits : fits s.params (s.rb + sourceValue s 1 a) = true) :
      Completed i s (((s.withCap c).withRb (s.rb + sourceValue s 1 a)).advance 2)
  /-- HALT. -/
  | halted (hi : i = .halt) : Completed i s (s.withSt .halted)

/-- A storing instruction that completes has stored its result. -/
theorem Completed.of_storeResult {f : Params → Int → Int → Except Fault Int} {i : Instr} {s t : State} {a b d : Mode}
    (h : finish (storeResult f a b d s) = .next t) (hto : storedTo i s = some (destAddress s 3 d))
    (hresult : ∀ r, f s.params (sourceValue s 1 a) (sourceValue s 2 b) = .ok r →
      storedValue i s = some r ∧ (fits s.params r = true ∨ r = 0 ∨ r = 1)) : Completed i s t := by
  obtain ⟨hparams, r, c, hr, hcap, hlt, rfl⟩ := storeResult_next (finish_next.1 h)
  obtain ⟨-, -, hdest, -⟩ := by simpa only [firstFault_cons] using hparams
  obtain ⟨hok, -⟩ := addr_value hdest
  obtain ⟨hvalue, hfits⟩ := hresult r hr
  exact .stored hcap hlt hok hto hvalue hfits

/-- A jump that completes has moved `pc`. -/
theorem Completed.of_jumpWhen {taken : Int → Bool} {i : Instr} {s t : State} {a g : Mode}
    (h : finish (jumpWhen taken a g s) = .next t) (hto : storedTo i s = none) : Completed i s t := by
  obtain ⟨-, c, hcap, ⟨-, -, rfl⟩ | ⟨-, rfl⟩⟩ := jumpWhen_next (finish_next.1 h)
  · exact .jumped hcap hto
  · exact .jumped (n := s.pc + 3) hcap hto

theorem truthValue_cases (b : Bool) : truthValue b = 0 ∨ truthValue b = 1 := by cases b <;> simp [truthValue]

/-- An instruction that completes has had one of the seven effects. -/
theorem exec_completed {i : Instr} {s t : State} (h : exec i s = .next t) : Completed i s t := by
  cases i with
  | add a b d =>
    exact .of_storeResult h rfl fun r hr => by
      obtain ⟨hfits, rfl⟩ := check_ok.1 hr
      exact ⟨rfl, .inl hfits⟩
  | mul a b d =>
    exact .of_storeResult h rfl fun r hr => by
      obtain ⟨hfits, rfl⟩ := check_ok.1 hr
      exact ⟨rfl, .inl hfits⟩
  | lt a b d =>
    exact .of_storeResult h rfl fun r hr => by
      cases hr
      exact ⟨congrArg some (lessThan_eq_ite _ _).symm, .inr (truthValue_cases _)⟩
  | eq a b d =>
    exact .of_storeResult h rfl fun r hr => by
      cases hr
      exact ⟨congrArg some (equalTo_eq_ite _ _).symm, .inr (truthValue_cases _)⟩
  | jnz a g => exact .of_jumpWhen h rfl
  | jz a g => exact .of_jumpWhen h rfl
  | inp d =>
    obtain ⟨hdest, c, hcap, ⟨hempty, rfl⟩ | ⟨v, rest, hfront, hlt, rfl⟩⟩ := execIn_next h
    · exact .suspended rfl hcap hempty
    · exact .took rfl hcap hlt (addr_value hdest).1 hfront
  | out a =>
    obtain ⟨-, c, hcap, rfl⟩ := execOut_next h
    exact .output rfl hcap
  | arb a =>
    obtain ⟨-, hfits, c, hcap, rfl⟩ := execArb_next h
    exact .moved rfl hcap hfits
  | halt =>
    cases h
    exact .halted rfl

/-- Each effect keeps the parameters and the host's moves, and never shrinks the capacity. -/
theorem Completed.keeps {i : Instr} {s t : State} (h : Completed i s t) :
    t.params = s.params ∧ t.host = s.host ∧ s.cap ≤ t.cap := by
  cases h with
  | stored hcap | took _ hcap | suspended _ hcap | output _ hcap | jumped hcap | moved _ hcap =>
    exact ⟨rfl, rfl, hcap.1⟩
  | halted => exact ⟨rfl, rfl, Nat.le_refl _⟩

/-- The queue loses at most its front value, and to IN alone (10_state.md R31). -/
theorem Completed.inq_cases {i : Instr} {s t : State} (h : Completed i s t) :
    t.inq = s.inq ∨ ∃ d v, i = .inp d ∧ s.inq = v :: t.inq ∧ t.out = s.out := by
  cases h with
  | took hi _ _ _ hfront => exact .inr ⟨_, _, hi, hfront, rfl⟩
  | stored | suspended | output | jumped | moved | halted => exact .inl rfl

/-- The output gains at most one value, and from OUT alone (10_state.md R32). -/
theorem Completed.out_cases {i : Instr} {s t : State} (h : Completed i s t) :
    t.out = s.out ∨ ∃ a v, i = .out a ∧ t.out = s.out ++ [v] ∧ t.inq = s.inq := by
  cases h with
  | output hi => exact .inr ⟨_, _, hi, rfl, rfl⟩
  | stored | took | suspended | jumped | moved | halted => exact .inl rfl

/-- `st` moves at an IN on an empty queue, which does nothing else, and at HALT (10_state.md R25). -/
theorem Completed.st_cases {i : Instr} {s t : State} (h : Completed i s t) :
    t.st = s.st ∨
    (t.st = .suspendedOnInput ∧ (∃ d, i = .inp d) ∧ s.inq = [] ∧ KeepsCells s t ∧ t.pc = s.pc ∧ KeepsRest s t) ∨
    (t.st = .halted ∧ i = .halt) := by
  cases h with
  | suspended hi _ hempty =>
    exact .inr (.inl ⟨rfl, ⟨_, hi⟩, hempty, fun _ => rfl, rfl, rfl, rfl, rfl, rfl, rfl⟩)
  | halted hi => exact .inr (.inr ⟨rfl, hi⟩)
  | stored | took | output | jumped | moved => exact .inl rfl

/-- An instruction stores to the cell `storedTo` names, or to none. -/
theorem Completed.cell_eq {i : Instr} {s t : State} (h : Completed i s t) {a : Nat} (ha : storedTo i s ≠ some a) :
    t.cell a = s.cell a := by
  cases h with
  | stored _ _ _ hto => exact Memory.get_set_other _ fun e => ha (e ▸ hto)
  | took hi _ _ _ hfront =>
    refine Memory.get_set_other _ fun e => ha ?_
    simp [hi, storedTo, hfront, e]
  | suspended | output | jumped | moved | halted => rfl

/-- An instruction that stores leaves the stored value in its cell, which is one that can be fetched, and goes on
running. -/
theorem Completed.cell_stored {i : Instr} {s t : State} (h : Completed i s t) (hwf : s.mem.wf = true) {a : Nat} {v : Int}
    (ha : storedTo i s = some a) (hv : storedValue i s = some v) :
    t.cell a = v ∧ t.st = s.st ∧ addressFault s.params (a : Int) = none := by
  cases h with
  | stored _ _ hok hto hvalue =>
    cases hto.symm.trans ha
    cases hvalue.symm.trans hv
    exact ⟨Memory.get_set_same hwf _ _, rfl, hok⟩
  | took hi _ _ hok hfront =>
    simp only [hi, storedTo, storedValue, hfront, List.head?_cons, reduceCtorEq, if_false, Option.some.injEq] at ha hv
    subst ha hv
    exact ⟨Memory.get_set_same hwf _ _, rfl, hok⟩
  | suspended hi _ hempty => simp [hi, storedTo, hempty] at ha
  | jumped _ hto => exact nomatch hto.symm.trans ha
  | output hi | moved hi | halted hi => simp [hi, storedTo] at ha

end Sys2Proof.Machine

namespace Sys2Proof
open Sys2Proof.Machine

/-- Settles O22. -/
theorem cellFrame : Obligations.CellFrame := fun _ _ _ h _ => (exec_completed h).cell_eq

/-- Settles O23: each register is moved by one effect, and that effect names its instruction. -/
theorem registerFrame : Obligations.RegisterFrame := by
  intro i s t h
  have hc := exec_completed h
  refine ⟨fun harb => ?_, fun hout => ?_, fun hin => ?_, fun hin hhalt => ?_, hc.keeps⟩
  · cases hc with
    | moved hi => exact absurd hi (harb _)
    | stored | took | suspended | output | jumped | halted => rfl
  · exact hc.out_cases.resolve_right fun ⟨a, _, hi, _⟩ => hout a hi
  · exact hc.inq_cases.resolve_right fun ⟨d, _, hi, _⟩ => hin d hi
  · rcases hc.st_cases with hst | ⟨-, ⟨d, hi⟩, -⟩ | ⟨-, hi⟩
    · exact hst
    · exact absurd hi (hin d)
    · exact absurd hi hhalt

/-- Settles O25. -/
theorem queueEnds : Obligations.QueueEnds := fun _ _ _ h => ⟨(exec_completed h).inq_cases, (exec_completed h).out_cases⟩

/-- Settles O26: of the three ways `st` can end, only a suspension is `SuspendedOnInput` for a running engine. -/
theorem onlyInSuspends : Obligations.OnlyInSuspends := by
  intro i s t h hrunning hsuspended
  rcases (exec_completed h).st_cases with hst | ⟨-, hsuspension⟩ | ⟨hhalted, -⟩
  · exact nomatch hsuspended.symm.trans (hst.trans hrunning)
  · exact hsuspension
  · exact nomatch hsuspended.symm.trans hhalted

/-- Settles O29: a parameter that raises no fault has a legal mode. -/
theorem illFormedNeverCompletes : Obligations.IllFormedNeverCompletes := by
  intro i s t h
  cases i with
  | add _ _ _ | mul _ _ _ | lt _ _ _ | eq _ _ _ =>
    obtain ⟨hparams, -⟩ := storeResult_next (finish_next.1 h)
    obtain ⟨ha, hb, hd, -⟩ := by simpa only [firstFault_cons] using hparams
    simp [Instr.wellFormed, legalSource_of_none ha, legalSource_of_none hb, legalDest_of_none hd]
  | jnz _ _ | jz _ _ =>
    obtain ⟨hparams, -⟩ := jumpWhen_next (finish_next.1 h)
    obtain ⟨ha, hg, -⟩ := by simpa only [firstFault_cons] using hparams
    simp [Instr.wellFormed, legalSource_of_none ha, legalSource_of_none hg]
  | inp _ => exact legalDest_of_none (execIn_next h).1
  | out _ => exact legalSource_of_none (execOut_next h).1
  | arb _ => exact legalSource_of_none (execArb_next h).1
  | halt => rfl

end Sys2Proof


/-! One step, branch by branch (40_dispatch_and_parameters.md R111; 48_run_protocol.md R201, R213, R218): an equation
for each thing a running engine and a host can come to, and what a step that answers a next state has done. -/

namespace Sys2Proof.Machine

section Engine
variable {s : State} (hfetch : addressFault s.params (s.pc : Int) = none)

include hfetch

/-- The fetch answers the word and moves only the capacity (R111). -/
theorem memRead_pc : memRead (s.pc : Int) s = .ok (s.word, s.touch s.pc) := by simp [memRead, hfetch]

theorem engineStep_of_invalid {e : DecodeFailure} (hword : decode s.word = .error e) :
    engineStep s = .next (takeInvalidOpcode (s.touch s.pc)) := by
  simp [engineStep, memRead_pc hfetch, hword]

theorem engineStep_of_instr {i : Instr} (hword : decode s.word = .ok i) :
    engineStep s = exec i (s.touch s.pc) := by
  simp [engineStep, memRead_pc hfetch, hword]

/-- The fetch moves the capacity as any reference does. -/
theorem capMove_fetch : CapMove s (capAfter s.params s.cap s.pc) := capMove_touch hfetch

end Engine

theorem engineStep_of_fault {s : State} {f : Fault} (hfetch : addressFault s.params (s.pc : Int) = some f) :
    engineStep s = .fault f := by
  simp [engineStep, memRead_fault hfetch]

/-- A word that is no instruction fails to decode. -/
theorem decode_of_invalidWord {w : Int} (h : invalidWord w) : ∃ e, decode w = .error e := by
  cases hw : decode w with
  | error e => exact ⟨e, rfl⟩
  | ok i => exact absurd hw (invalidWord_iff.1 h i)

/-- A running engine that stepped has met an invalid word or completed its instruction. -/
theorem engineStep_next {s t : State} (h : engineStep s = .next t) :
    CapMove s (capAfter s.params s.cap s.pc) ∧
    ((invalidWord s.word ∧ t = takeInvalidOpcode (s.touch s.pc)) ∨
      ∃ i, decode s.word = .ok i ∧ Completed i (s.touch s.pc) t) := by
  cases hfetch : addressFault s.params (s.pc : Int) with
  | some f => exact nomatch (engineStep_of_fault hfetch).symm.trans h
  | none =>
    refine ⟨capMove_fetch hfetch, ?_⟩
    cases hword : decode s.word with
    | error e =>
      cases (engineStep_of_invalid hfetch hword).symm.trans h
      exact .inl ⟨invalidWord_iff.2 fun i hi => (nomatch hword.symm.trans hi), rfl⟩
    | ok i => exact .inr ⟨i, rfl, exec_completed ((engineStep_of_instr hfetch hword).symm.trans h)⟩

section Host
variable {s : State} {rest : List HostMove}

theorem hostStep_nil (hhost : s.host = []) : hostStep s = .next s := by simp [hostStep, hhost]

theorem construct_unfit {program : List Int} {v : Int} (hfit : firstUnfit s.params program = some v) :
    construct program s = .error (.unrepresentableProgramCell v) := by
  simp [construct, hfit]

theorem construct_long {program : List Int} (hfit : firstUnfit s.params program = none)
    (hlen : withinMax s.params program.length = false) :
    construct program s = .error (.programTooLong program.length) := by
  simp [construct, hfit, hlen]

theorem construct_fresh {program : List Int} (hfit : firstUnfit s.params program = none)
    (hlen : withinMax s.params program.length = true) :
    construct program s = .ok (State.fresh s.params program s.inq s.host) := by
  simp [construct, hfit, hlen]

theorem hostStep_new_unfit {program : List Int} {v : Int} (hhost : s.host = .new program :: rest)
    (hfit : firstUnfit s.params program = some v) :
    hostStep s = .refused (.unrepresentableProgramCell v) := by
  simp [hostStep, hhost, construct_unfit (s := s.withHost rest) hfit]

theorem hostStep_new_long {program : List Int} (hhost : s.host = .new program :: rest)
    (hfit : firstUnfit s.params program = none) (hlen : withinMax s.params program.length = false) :
    hostStep s = .refused (.programTooLong program.length) := by
  simp [hostStep, hhost, construct_long (s := s.withHost rest) hfit hlen]

theorem hostStep_new {program : List Int} (hhost : s.host = .new program :: rest)
    (hfit : firstUnfit s.params program = none) (hlen : withinMax s.params program.length = true) :
    hostStep s = .next (State.fresh s.params program s.inq rest) := by
  simp [hostStep, hhost, construct_fresh (s := s.withHost rest) hfit hlen]

theorem hostStep_queue_unfit {values : List Int} {v : Int} (hhost : s.host = .queue values :: rest)
    (hfit : firstUnfit s.params values = some v) : hostStep s = .refused (.unrepresentableInput v) := by
  simp [hostStep, hhost, hfit]

theorem hostStep_queue {values : List Int} (hhost : s.host = .queue values :: rest)
    (hfit : firstUnfit s.params values = none) : hostStep s = .next ((s.withHost rest).withInq values) := by
  simp [hostStep, hhost, hfit]

theorem hostStep_run (hhost : s.host = .run :: rest) : hostStep s = .next (invoke (s.withHost rest)) := by
  simp [hostStep, hhost]

end Host

/-- A construction that is not refused is the reset state of a representable program that fits. -/
theorem construct_ok {program : List Int} {s t : State} (h : construct program s = .ok t) :
    firstUnfit s.params program = none ∧ withinMax s.params program.length = true ∧
      t = State.fresh s.params program s.inq s.host := by
  cases hfit : firstUnfit s.params program with
  | some v => exact nomatch (construct_unfit hfit).symm.trans h
  | none =>
    cases hlen : withinMax s.params program.length with
    | false => exact nomatch (construct_long hfit hlen).symm.trans h
    | true => exact ⟨rfl, rfl, Except.ok.inj (h.symm.trans (construct_fresh hfit hlen))⟩

/-- A host that stepped had no move, or has constructed an engine, filled its queue or invoked the engine. -/
theorem hostStep_next {s t : State} (h : hostStep s = .next t) :
    (s.host = [] ∧ t = s) ∨
    (∃ program rest, s.host = .new program :: rest ∧ construct program (s.withHost rest) = .ok t) ∨
    (∃ values rest, s.host = .queue values :: rest ∧ firstUnfit s.params values = none ∧
      t = (s.withHost rest).withInq values) ∨
    ∃ rest, s.host = .run :: rest ∧ t = invoke (s.withHost rest) := by
  rcases hostStep_cases s with ⟨hhost, he⟩ | ⟨program, rest, hhost, ⟨r, -, he⟩ | ⟨hfit, hlen, he⟩⟩ |
    ⟨values, rest, hhost, ⟨v, -, he⟩ | ⟨hfit, he⟩⟩ | ⟨rest, hhost, he⟩ <;> cases he.symm.trans h
  · exact .inl ⟨hhost, rfl⟩
  · exact .inr (.inl ⟨program, rest, hhost, construct_fresh (s := s.withHost rest) hfit hlen⟩)
  · exact .inr (.inr (.inl ⟨values, rest, hhost, hfit, rfl⟩))
  · exact .inr (.inr (.inr ⟨rest, hhost, rfl⟩))

end Sys2Proof.Machine

/-! The faults an instruction can raise (60_exceptions.md R235), said once for all ten. -/

namespace Sys2Proof.Machine

/-- Why an instruction faults: one of the five situations of R233, with what the machine must be like for it. -/
inductive Raises (i : Instr) (s : State) : Fault → Prop
  /-- A reference by an instruction that has a parameter. -/
  | reference {f : Fault} (hi : 1 < i.cells) (hf : AddressFaultOf s.params f) : Raises i s f
  /-- An undefined mode of a parameter the instruction has. -/
  | mode {k : Nat} (hk : 1 ≤ k) (hc : k < i.cells) : Raises i s (.invalidMode s.word k)
  /-- An immediate destination. -/
  | destination {k : Nat} (hi : ∀ w, mayRaise i (.immediateWriteTarget w k) = true) :
      Raises i s (.immediateWriteTarget s.word k)
  /-- A jump to a negative target. -/
  | target {t : Int} (hi : mayRaise i (.negativeJumpTarget t) = true) : Raises i s (.negativeJumpTarget t)
  /-- A result that does not fit. -/
  | result {r : Int} (hi : ∀ r, mayRaise i (.overflow r) = true) (hr : fits s.params r = false) :
      Raises i s (.overflow r)

/-- The fault of a source parameter the instruction has. -/
theorem Raises.of_sourceFault {i : Instr} {s : State} {k : Nat} {m : Mode} {f : Fault} (hk : 1 ≤ k) (hc : k < i.cells)
    (h : sourceFault s k m = some f) : Raises i s f := by
  rcases sourceFault_cases h with hf | ⟨rfl, -⟩
  · exact .reference (Nat.lt_of_le_of_lt hk hc) hf
  · exact .mode hk hc

/-- The fault of the destination parameter the instruction has. -/
theorem Raises.of_destFault {i : Instr} {s : State} {k : Nat} {m : Mode} {f : Fault} (hk : 1 ≤ k) (hc : k < i.cells)
    (hi : ∀ w, mayRaise i (.immediateWriteTarget w k) = true) (h : destFault s k m = some f) : Raises i s f := by
  rcases destFault_cases h with hf | ⟨rfl, -⟩ | ⟨rfl, -⟩
  · exact .reference (Nat.lt_of_le_of_lt hk hc) hf
  · exact .mode hk hc
  · exact .destination hi

/-- The fault of a storing instruction: a parameter's or its result's. -/
theorem Raises.of_storeResult {f : Params → Int → Int → Except Fault Int} {i : Instr} {s : State} {a b d : Mode}
    {g : Fault} (h : finish (storeResult f a b d s) = .fault g) (hc : i.cells = 4)
    (hi : ∀ w, mayRaise i (.immediateWriteTarget w 3) = true)
    (hresult : f s.params (sourceValue s 1 a) (sourceValue s 2 b) = .error g → Raises i s g) : Raises i s g := by
  rcases storeResult_error (finish_fault.1 h) with hparam | hr
  · simp only [List.mem_cons, List.not_mem_nil, or_false] at hparam
    rcases hparam with ha | hb | hd
    · exact .of_sourceFault (by decide) (by omega) ha.symm
    · exact .of_sourceFault (by decide) (by omega) hb.symm
    · exact .of_destFault (by decide) (by omega) hi hd.symm
  · exact hresult hr

/-- The fault of a checked result. -/
theorem Raises.of_check {i : Instr} {s : State} {r : Int} {f : Fault} (hi : ∀ r, mayRaise i (.overflow r) = true)
    (h : check s.params r = .error f) : Raises i s f := by
  obtain ⟨hr, rfl⟩ := check_error.1 h
  exact .result hi hr

/-- The fault of a jump: a parameter's or its target's. -/
theorem Raises.of_jumpWhen {taken : Int → Bool} {i : Instr} {s : State} {a g : Mode} {f : Fault}
    (h : finish (jumpWhen taken a g s) = .fault f) (hc : i.cells = 3)
    (hi : ∀ t, t < 0 → mayRaise i (.negativeJumpTarget t) = true) : Raises i s f := by
  rcases jumpWhen_error (finish_fault.1 h) with hparam | ⟨t, hneg, rfl⟩
  · simp only [List.mem_cons, List.not_mem_nil, or_false] at hparam
    rcases hparam with ha | hg
    · exact .of_sourceFault (by decide) (by omega) ha.symm
    · exact .of_sourceFault (by decide) (by omega) hg.symm
  · exact .target (hi t hneg)

/-- An instruction faults for one of the five reasons. -/
theorem exec_raises {i : Instr} {s : State} {f : Fault} (h : exec i s = .fault f) : Raises i s f := by
  cases i with
  | add _ _ _ | mul _ _ _ => exact .of_storeResult h rfl (fun _ => rfl) (.of_check fun _ => rfl)
  | lt _ _ _ | eq _ _ _ => exact .of_storeResult h rfl (fun _ => rfl) (nomatch ·)
  | jnz _ _ | jz _ _ => exact .of_jumpWhen h rfl fun _ hneg => decide_eq_true hneg
  | inp _ => exact .of_destFault (Nat.le_refl 1) Nat.one_lt_two (fun _ => rfl) (execIn_error h)
  | out _ => exact .of_sourceFault (Nat.le_refl 1) Nat.one_lt_two (execOut_error h)
  | arb _ =>
    rcases execArb_error h with hsource | ⟨hr, rfl⟩
    · exact .of_sourceFault (Nat.le_refl 1) Nat.one_lt_two hsource
    · exact .result (fun _ => rfl) hr
  | halt => exact nomatch h

/-- Every instruction that has a parameter can raise the faults of a reference. -/
theorem mayRaise_reference {i : Instr} {p : Params} {f : Fault} (hi : 1 < i.cells) (hf : AddressFaultOf p f) :
    mayRaise i f = true := by
  rcases hf with ⟨a, hneg, rfl⟩ | ⟨a, m, rfl, -, -⟩
  · cases i with
    | halt => exact absurd hi (by decide)
    | _ => exact decide_eq_true hneg
  · cases i with
    | halt => exact absurd hi (by decide)
    | _ => rfl

/-- What an instruction raises is in its row of the table (R235). -/
theorem Raises.mayRaise {i : Instr} {s : State} {f : Fault} (h : Raises i s f) : mayRaise i f = true := by
  cases h with
  | reference hi hf => exact mayRaise_reference hi hf
  | @mode k hk hc =>
    obtain ⟨k, rfl⟩ := Nat.exists_eq_add_of_le' hk
    cases i <;> exact decide_eq_true hc
  | destination hi => exact hi _
  | target hi => exact hi
  | result hi => exact hi _

/-- A fault that only a finite parameter brings about (41_arithmetic.md R144, 20_memory.md R57). -/
def FiniteOnly (f : Fault) : Prop := (∃ r, f = .overflow r) ∨ ∃ a, f = .memoryExhausted a

theorem AddressFaultOf.not_finiteOnly {f : Fault} (h : AddressFaultOf Params.reference f) : ¬ FiniteOnly f := by
  rcases h with ⟨a, -, rfl⟩ | ⟨a, m, -, hm, -⟩
  · simp [FiniteOnly]
  · exact nomatch hm

/-- With the reference parameters every address exists and every result fits. -/
theorem Raises.not_finiteOnly {i : Instr} {s : State} {f : Fault} (hp : s.params = Params.reference)
    (h : Raises i s f) : ¬ FiniteOnly f := by
  cases h with
  | reference _ hf => exact (hp ▸ hf).not_finiteOnly
  | result _ hr =>
    rw [hp] at hr
    exact nomatch hr
  | mode | destination | target => simp [FiniteOnly]

/-- A host's step raises no fault. -/
theorem hostStep_not_fault (s : State) (f : Fault) : hostStep s ≠ .fault f := by
  rcases hostStep_cases s with ⟨-, h⟩ | ⟨_, _, -, ⟨_, -, h⟩ | ⟨-, -, h⟩⟩ | ⟨_, _, -, ⟨_, -, h⟩ | ⟨-, h⟩⟩ |
    ⟨_, -, h⟩ <;> simp [h]

/-- A step that faults is that of a running engine whose fetch or instruction faults. -/
theorem step_fault {s : State} {f : Fault} (h : step s = .fault f) :
    AddressFaultOf s.params f ∨ ∃ i, Raises i (s.touch s.pc) f := by
  by_cases hst : s.st = .running
  · rw [step_running hst] at h
    rcases engineStep_cases s with ⟨g, hg, he⟩ | ⟨-, ⟨e, -, he⟩ | ⟨i, -, he⟩⟩
    · cases he.symm.trans h
      exact .inl (addressFaultOf hg)
    · exact nomatch he.symm.trans h
    · exact .inr ⟨i, exec_raises (he.symm.trans h)⟩
  · rw [step_host hst] at h
    exact absurd h (hostStep_not_fault s f)

end Sys2Proof.Machine

namespace Sys2Proof
open Sys2Proof.Machine

/-- Settles O27: each reason for a fault is in the instruction's row; of the ends of `st`, none is `Failed`. -/
theorem faultTable : Obligations.FaultTable := by
  refine fun i s => ⟨fun f h => (exec_raises h).mayRaise, fun t h hfailed => ?_, exec_not_refused i s⟩
  rcases (exec_completed h).st_cases with hst | ⟨hst, -⟩ | ⟨hst, -⟩
  · exact hst.symm.trans hfailed
  · exact nomatch hst.symm.trans hfailed
  · exact nomatch hst.symm.trans hfailed

/-- Settles O28: neither the fetch nor the instruction raises a fault that needs a finite parameter. -/
theorem unboundedNeverOverflows : Obligations.UnboundedNeverOverflows := by
  intro s f hp h
  have hnot : ¬ FiniteOnly f := by
    rcases step_fault h with hf | ⟨i, hf⟩
    · exact (hp ▸ hf).not_finiteOnly
    · exact hf.not_finiteOnly (s := s.touch s.pc) hp
  exact ⟨fun r hr => hnot (.inl ⟨r, hr⟩), fun a ha => hnot (.inr ⟨a, ha⟩)⟩

end Sys2Proof

/-! The hidden capacity (10_state.md R30, 92_eei_decisions.md D14): states that differ in nothing else step alike. -/

namespace Sys2Proof.Machine

theorem sameButCap_iff {s t : State} : SameButCap s t ↔ ∃ c, t = s.withCap c :=
  ⟨fun h => ⟨_, h⟩, fun ⟨_, h⟩ => by subst h; rfl⟩

theorem storeResult_sameButCap (f : Params → Int → Int → Except Fault Int) (a b d : Mode) (s : State) (c : Nat) :
    SameOutcomeButCap (finish (storeResult f a b d s)) (finish (storeResult f a b d (s.withCap c))) := by
  cases hparams : firstFault [sourceFault s 1 a, sourceFault s 2 b, destFault s 3 d] with
  | some g =>
    rw [storeResult_fault hparams, storeResult_fault (s := s.withCap c) hparams]
    rfl
  | none =>
    obtain ⟨hfault, hvalue⟩ := storeResult_value (f := f) hparams
    obtain ⟨hfault', hvalue'⟩ := storeResult_value (f := f) (s := s.withCap c) hparams
    cases hr : f s.params (sourceValue s 1 a) (sourceValue s 2 b) with
    | error g =>
      rw [hfault g hr, hfault' g hr]
      rfl
    | ok r =>
      obtain ⟨_, -, -, h⟩ := hvalue r hr
      obtain ⟨_, -, -, h'⟩ := hvalue' r hr
      rw [h, h']
      rfl

theorem jumpWhen_sameButCap (taken : Int → Bool) (a g : Mode) (s : State) (c : Nat) :
    SameOutcomeButCap (finish (jumpWhen taken a g s)) (finish (jumpWhen taken a g (s.withCap c))) := by
  cases hparams : firstFault [sourceFault s 1 a, sourceFault s 2 g] with
  | some f =>
    rw [jumpWhen_fault hparams, jumpWhen_fault (s := s.withCap c) hparams]
    rfl
  | none =>
    obtain ⟨_, -, h⟩ := jumpWhen_value (taken := taken) hparams
    obtain ⟨_, -, h'⟩ := jumpWhen_value (taken := taken) (s := s.withCap c) hparams
    rw [h, h']
    by_cases htaken : taken (sourceValue s 1 a) = true
    · by_cases hneg : sourceValue s 2 g < 0
      · simp only [sourceValue_withCap, htaken, hneg, ↓reduceIte]
        rfl
      · simp only [sourceValue_withCap, htaken, hneg, ↓reduceIte]
        rfl
    · simp only [sourceValue_withCap, htaken]
      rfl

theorem execIn_sameButCap (d : Mode) (s : State) (c : Nat) :
    SameOutcomeButCap (execIn d s) (execIn d (s.withCap c)) := by
  cases hdest : destFault s 1 d with
  | some f =>
    rw [execIn_fault hdest, execIn_fault (s := s.withCap c) hdest]
    rfl
  | none =>
    cases hq : s.inq with
    | nil =>
      obtain ⟨_, -, h⟩ := execIn_suspend hdest hq
      obtain ⟨_, -, h'⟩ := execIn_suspend (s := s.withCap c) hdest hq
      rw [h, h']
      rfl
    | cons v rest =>
      obtain ⟨_, -, -, h⟩ := execIn_value hdest hq
      obtain ⟨_, -, -, h'⟩ := execIn_value (s := s.withCap c) hdest hq
      rw [h, h']
      rfl

theorem execOut_sameButCap (a : Mode) (s : State) (c : Nat) :
    SameOutcomeButCap (execOut a s) (execOut a (s.withCap c)) := by
  cases hsource : sourceFault s 1 a with
  | some f =>
    rw [execOut_fault hsource, execOut_fault (s := s.withCap c) hsource]
    rfl
  | none =>
    obtain ⟨_, -, h⟩ := execOut_value hsource
    obtain ⟨_, -, h'⟩ := execOut_value (s := s.withCap c) hsource
    rw [h, h']
    rfl

theorem execArb_sameButCap (a : Mode) (s : State) (c : Nat) :
    SameOutcomeButCap (execArb a s) (execArb a (s.withCap c)) := by
  cases hsource : sourceFault s 1 a with
  | some f =>
    rw [execArb_fault hsource, execArb_fault (s := s.withCap c) hsource]
    rfl
  | none =>
    obtain ⟨hunfit, hfit⟩ := execArb_value hsource
    obtain ⟨hunfit', hfit'⟩ := execArb_value (s := s.withCap c) hsource
    cases hr : fits s.params (s.rb + sourceValue s 1 a) with
    | false =>
      rw [hunfit hr, hunfit' hr]
      rfl
    | true =>
      obtain ⟨_, -, h⟩ := hfit hr
      obtain ⟨_, -, h'⟩ := hfit' hr
      rw [h, h']
      rfl

/-- No instruction can tell the capacity. -/
theorem exec_sameButCap (i : Instr) (s : State) (c : Nat) :
    SameOutcomeButCap (exec i s) (exec i (s.withCap c)) := by
  cases i with
  | add _ _ _ | mul _ _ _ | lt _ _ _ | eq _ _ _ => exact storeResult_sameButCap _ _ _ _ s c
  | jnz _ _ | jz _ _ => exact jumpWhen_sameButCap _ _ _ s c
  | inp d => exact execIn_sameButCap d s c
  | out a => exact execOut_sameButCap a s c
  | arb a => exact execArb_sameButCap a s c
  | halt => exact sameButCap_iff.2 ⟨c, rfl⟩

/-- The fetch cannot tell the capacity either, and only moves it before the instruction runs. -/
theorem engineStep_sameButCap (s : State) (c : Nat) :
    SameOutcomeButCap (engineStep s) (engineStep (s.withCap c)) := by
  cases hfetch : addressFault s.params (s.pc : Int) with
  | some f =>
    rw [engineStep_of_fault hfetch, engineStep_of_fault (s := s.withCap c) hfetch]
    rfl
  | none =>
    cases hword : decode s.word with
    | error e =>
      rw [engineStep_of_invalid hfetch hword, engineStep_of_invalid (s := s.withCap c) hfetch hword]
      rfl
    | ok i =>
      rw [engineStep_of_instr hfetch hword, engineStep_of_instr (s := s.withCap c) hfetch hword]
      exact exec_sameButCap i (s.touch s.pc) _

/-- No move of the host can tell the capacity. -/
theorem hostStep_sameButCap (s : State) (c : Nat) :
    SameOutcomeButCap (hostStep s) (hostStep (s.withCap c)) := by
  cases hhost : s.host with
  | nil =>
    rw [hostStep_nil hhost, hostStep_nil (s := s.withCap c) hhost]
    exact sameButCap_iff.2 ⟨c, rfl⟩
  | cons move rest =>
    cases move with
    | new program =>
      cases hfit : firstUnfit s.params program with
      | some v =>
        rw [hostStep_new_unfit hhost hfit, hostStep_new_unfit (s := s.withCap c) hhost hfit]
        rfl
      | none =>
        cases hlen : withinMax s.params program.length with
        | false =>
          rw [hostStep_new_long hhost hfit hlen, hostStep_new_long (s := s.withCap c) hhost hfit hlen]
          rfl
        | true =>
          rw [hostStep_new hhost hfit hlen, hostStep_new (s := s.withCap c) hhost hfit hlen]
          rfl
    | queue values =>
      cases hfit : firstUnfit s.params values with
      | some v =>
        rw [hostStep_queue_unfit hhost hfit, hostStep_queue_unfit (s := s.withCap c) hhost hfit]
        rfl
      | none =>
        rw [hostStep_queue hhost hfit, hostStep_queue (s := s.withCap c) hhost hfit]
        rfl
    | run =>
      rw [hostStep_run hhost, hostStep_run (s := s.withCap c) hhost]
      rfl

end Sys2Proof.Machine

namespace Sys2Proof
open Sys2Proof.Machine

/-- Settles O30: the second state is the first at another capacity, so whichever agent moves, both step alike. -/
theorem capacityUnobservable : Obligations.CapacityUnobservable := by
  intro s t h
  obtain ⟨c, rfl⟩ := sameButCap_iff.1 h
  by_cases hst : s.st = .running
  · rw [step_running hst, step_running (s := s.withCap c) hst]
    exact engineStep_sameButCap s c
  · rw [step_host hst, step_host (s := s.withCap c) hst]
    exact hostStep_sameButCap s c

end Sys2Proof


/-! The invariant (10_state.md R30, R38; 41_arithmetic.md R144): what a state that meets it can read, which updates keep
it, and from these every step. -/

namespace Sys2Proof.Machine

/-- A truth value is representable: a finite `CELL_BITS` is at least 2 (log entry 26). -/
theorem fits_truth {p : Params} (hp : p.wf = true) {v : Int} (hv : v = 0 ∨ v = 1) : fits p v = true := by
  cases hbits : p.cellBits with
  | none => simp [fits, hbits]
  | some n =>
    have hn : 2 ≤ n := by simpa [Params.wf, hbits] using hp
    have hpow : (2 : Int) ^ 1 ≤ 2 ^ (n - 1) := pow_le_pow_right₀ (by decide) (by omega)
    have hrange : cellMin n ≤ v ∧ v ≤ cellMax n := by
      unfold cellMin cellMax
      omega
    simp [fits, hbits, hrange]

section Fresh
variable (p : Params) (program inq : List Int) (host : List HostMove)
@[simp] theorem State.fresh_params : (State.fresh p program inq host).params = p := rfl
@[simp] theorem State.fresh_cap : (State.fresh p program inq host).cap = program.length := rfl
@[simp] theorem State.fresh_pc : (State.fresh p program inq host).pc = 0 := rfl
@[simp] theorem State.fresh_rb : (State.fresh p program inq host).rb = 0 := rfl
@[simp] theorem State.fresh_st : (State.fresh p program inq host).st = .idle := rfl
@[simp] theorem State.fresh_out : (State.fresh p program inq host).out = [] := rfl
@[simp] theorem State.fresh_inq : (State.fresh p program inq host).inq = inq := rfl
@[simp] theorem State.fresh_host : (State.fresh p program inq host).host = host := rfl

/-- The constructed engine's cells are the program's, and 0 beyond it (10_state.md R36). -/
@[simp] theorem State.fresh_cell (a : Nat) : (State.fresh p program inq host).cell a = program.getD a 0 := by
  have h := Memory.get_load program 0 a
  rwa [Nat.zero_add] at h
end Fresh

namespace Inv

section
variable {s : State} (h : Inv s)

include h

/-- Every cell reads as a representable value, listed or not. -/
theorem cell_fits (a : Nat) : fits s.params (s.cell a) = true := by
  rcases Memory.get_cases s.mem a with hzero | hmem
  · exact fits_truth h.paramsWf (.inl hzero)
  · exact h.cellsFit _ hmem

theorem sourceValue_fits (k : Nat) (m : Mode) : fits s.params (sourceValue s k m) = true := by
  unfold sourceValue
  split <;> exact h.cell_fits _

/-- A cell at or above the capacity is not listed and reads 0 (R30). -/
theorem cell_above_cap {a : Nat} (ha : s.cap ≤ a) : s.cell a = 0 :=
  (Memory.get_cases s.mem a).resolve_right fun hmem => absurd (h.cellsExist _ hmem) (Nat.not_lt.2 ha)

theorem withCap {c : Nat} (hcap : CapMove s c) : Inv (s.withCap c) :=
  { h with
    cellsExist := fun x hx => Nat.lt_of_lt_of_le (h.cellsExist x hx) hcap.1
    capBounded := fun m hm => hcap.2 m hm (h.capBounded m hm) }

/-- A write of a representable value below the capacity. -/
theorem withMem_set {a : Nat} {v : Int} (ha : a < s.cap) (hv : fits s.params v = true) :
    Inv (s.withMem (s.mem.set a v)) :=
  { h with
    memWf := Memory.set_wf h.memWf a v
    cellsExist := fun x hx => by
      rcases Memory.mem_set hx with hold | rfl
      · exact h.cellsExist x hold
      · exact ha
    cellsFit := fun x hx => by
      rcases Memory.mem_set hx with hold | rfl
      · exact h.cellsFit x hold
      · exact hv }

theorem withPc (n : Nat) : Inv (s.withPc n) := { h with }

theorem advance (n : Nat) : Inv (s.advance n) := h.withPc _

theorem withSt (e : ExecState) : Inv (s.withSt e) := { h with }

theorem withHost (ms : List HostMove) : Inv (s.withHost ms) := { h with }

theorem withRb {v : Int} (hv : fits s.params v = true) : Inv (s.withRb v) := { h with rbFits := hv }

theorem withInq {vs : List Int} (hvs : ∀ v ∈ vs, fits s.params v = true) : Inv (s.withInq vs) :=
  { h with inqFits := hvs }

theorem withOut {vs : List Int} (hvs : ∀ v ∈ vs, fits s.params v = true) : Inv (s.withOut vs) :=
  { h with outFits := hvs }

theorem push {v : Int} (hv : fits s.params v = true) : Inv (s.push v) :=
  h.withOut fun u hu => by
    rcases List.mem_append.1 hu with hold | hnew
    · exact h.outFits u hold
    · exact List.mem_singleton.1 hnew ▸ hv

theorem invoke : Inv (invoke s) := (h.withOut (vs := []) fun _ hv => (nomatch hv)).withSt _

/-- Each effect of an instruction keeps the invariant. -/
theorem completed {i : Instr} {t : State} (ht : Completed i s t) : Inv t := by
  cases ht with
  | stored hcap hlt _ _ _ hfits =>
    exact ((h.withCap hcap).withMem_set hlt (hfits.elim id (fits_truth h.paramsWf))).advance 4
  | took _ hcap hlt _ hfront =>
    have hqueue : ∀ u ∈ _ :: _, fits s.params u = true := hfront ▸ h.inqFits
    obtain ⟨hv, hrest⟩ := List.forall_mem_cons.1 hqueue
    exact (((h.withCap hcap).withInq hrest).withMem_set hlt hv).advance 2
  | suspended _ hcap => exact (h.withCap hcap).withSt _
  | output _ hcap => exact ((h.withCap hcap).push (h.sourceValue_fits 1 _)).advance 2
  | jumped hcap => exact (h.withCap hcap).withPc _
  | moved _ hcap hfits => exact ((h.withCap hcap).withRb hfits).advance 2
  | halted => exact h.withSt _

theorem engineStep {t : State} (ht : engineStep s = .next t) : Inv t := by
  obtain ⟨hcap, ⟨-, rfl⟩ | ⟨i, -, hdone⟩⟩ := engineStep_next ht
  · exact (h.withCap hcap).withSt _
  · exact (h.withCap hcap).completed hdone

/-- A construction that is not refused meets the invariant, whatever the old engine was. -/
theorem construct {program : List Int} {t : State} (ht : construct program s = .ok t) : Inv t := by
  obtain ⟨hfit, hlen, rfl⟩ := construct_ok ht
  refine ⟨h.paramsWf, Memory.load_wf program, fun x hx => ?_, fun m hm => ?_, fun x hx => ?_,
    fits_truth h.paramsWf (.inl rfl), fun _ hv => (nomatch hv), h.inqFits⟩
  · obtain ⟨-, hlt, -⟩ := Memory.mem_load hx
    simpa using hlt
  · simpa [withinMax, show s.params.addrMax = some m from hm] using hlen
  · obtain ⟨-, -, hmem⟩ := Memory.mem_load hx
    exact firstUnfit_none.1 hfit _ hmem

theorem hostStep {t : State} (ht : hostStep s = .next t) : Inv t := by
  rcases hostStep_next ht with ⟨-, rfl⟩ | ⟨program, rest, -, hnew⟩ | ⟨values, rest, -, hfit, rfl⟩ | ⟨rest, -, rfl⟩
  · exact h
  · exact (h.withHost rest).construct hnew
  · exact (h.withHost rest).withInq (firstUnfit_none.1 hfit)
  · exact (h.withHost rest).invoke

end

end Inv

end Sys2Proof.Machine

namespace Sys2Proof
open Sys2Proof.Machine

/-- Settles O40: whichever agent moves keeps the invariant. -/
theorem stepKeepsInvariant : Obligations.StepKeepsInvariant := by
  intro s t h hstep
  by_cases hst : s.st = .running
  · exact h.engineStep (step_running hst ▸ hstep)
  · exact h.hostStep (step_host hst ▸ hstep)

/-- Settles O39: at reset no cell is listed, nothing is queued or output, and no parameter is finite. -/
theorem resetMeetsInvariant : Obligations.ResetMeetsInvariant :=
  ⟨rfl, rfl, fun _ hx => (nomatch hx), fun _ hm => (nomatch hm), fun _ hx => (nomatch hx), rfl,
    fun _ hv => (nomatch hv), fun _ hv => (nomatch hv)⟩

end Sys2Proof


/-! One step of a running engine: a fault of the fetch, `InvalidOpcode` or an instruction, with what IN and HALT do and
what the next fetch sees of a store. -/

namespace Sys2Proof.Machine

/-- `pc` within `ADDR_MAX` is no fault to fetch (20_memory.md R57). -/
theorem fetch_noFault {s : State} (h : ∀ m, s.params.addrMax = some m → s.pc ≤ m) :
    addressFault s.params (s.pc : Int) = none :=
  addressFault_none.2 ⟨Int.natCast_nonneg _, fun m hm => by exact_mod_cast h m hm⟩

/-- A running engine at an invalid word fails, whatever else it holds (60_exceptions.md R230). -/
theorem step_invalidWord {s : State} (hst : s.st = .running) (hfetch : addressFault s.params (s.pc : Int) = none)
    (hword : invalidWord s.word) : step s = .next (takeInvalidOpcode (s.touch s.pc)) := by
  obtain ⟨e, he⟩ := decode_of_invalidWord hword
  rw [step_running hst]
  exact engineStep_of_invalid hfetch he

/-- A running engine at an instruction's word runs it (40_dispatch_and_parameters.md R125). -/
theorem step_instr {s : State} {i : Instr} (hst : s.st = .running)
    (hfetch : addressFault s.params (s.pc : Int) = none) (hword : decode s.word = .ok i) :
    step s = exec i (s.touch s.pc) := by
  rw [step_running hst]
  exact engineStep_of_instr hfetch hword

/-- Where a running engine that stepped ends: still running, or suspended at an IN on an empty queue, or halted at a
HALT word, or failed at an invalid one (48_run_protocol.md R205). -/
theorem engineStep_st {s t : State} (hst : s.st = .running) (h : engineStep s = .next t) :
    t.st = .running ∨ (t.st = .suspendedOnInput ∧ s.inq = [] ∧ t.inq = []) ∨
      (t.st = .halted ∧ s.word % 100 = 99) ∨ (t.st = .failed ∧ invalidWord s.word) := by
  obtain ⟨-, ⟨hinvalid, rfl⟩ | ⟨i, hword, hdone⟩⟩ := engineStep_next h
  · exact .inr (.inr (.inr ⟨rfl, hinvalid⟩))
  · rcases hdone.st_cases with hkept | ⟨hsuspended, -, hempty, -, -, hrest⟩ | ⟨hhalted, rfl⟩
    · exact .inl (hkept.trans hst)
    · obtain ⟨-, -, hinq, -, -⟩ := hrest
      exact .inr (.inl ⟨hsuspended, hempty, hinq.trans hempty⟩)
    · exact .inr (.inr (.inl ⟨hhalted, opcode_of_decode hword⟩))

/-- A running engine's step keeps the parameters and the host's moves. -/
theorem engineStep_keeps {s t : State} (h : engineStep s = .next t) : t.params = s.params ∧ t.host = s.host := by
  obtain ⟨-, ⟨-, rfl⟩ | ⟨i, -, hdone⟩⟩ := engineStep_next h
  · exact ⟨rfl, rfl⟩
  · obtain ⟨hparams, hhost, -⟩ := hdone.keeps
    exact ⟨hparams, hhost⟩

/-- A running engine's step takes at most the front value from the queue. -/
theorem engineStep_inq {s t : State} (h : engineStep s = .next t) : t.inq = s.inq ∨ ∃ v, s.inq = v :: t.inq := by
  obtain ⟨-, ⟨-, rfl⟩ | ⟨i, -, hdone⟩⟩ := engineStep_next h
  · exact .inl rfl
  · exact hdone.inq_cases.imp_right fun ⟨_, v, _, hfront, _⟩ => ⟨v, hfront⟩

/-- A running engine's step appends at most one value to the output. -/
theorem engineStep_out {s t : State} (h : engineStep s = .next t) : t.out = s.out ∨ ∃ v, t.out = s.out ++ [v] := by
  obtain ⟨-, ⟨-, rfl⟩ | ⟨i, -, hdone⟩⟩ := engineStep_next h
  · exact .inl rfl
  · exact hdone.out_cases.imp_right fun ⟨_, v, _, hlast, _⟩ => ⟨v, hlast⟩

/-- A write that raises no fault, with the capacity it leaves named (20_memory.md R55). -/
theorem memWrite_of_noFault {a v : Int} {s : State} (h : addressFault s.params a = none) :
    memWrite a v s =
      .ok ((s.withCap (capAfter s.params s.cap a.toNat)).withMem (s.mem.set a.toNat v)) := by
  simp [memWrite, h, State.touch_eq]

end Sys2Proof.Machine

namespace Sys2Proof
open Sys2Proof.Machine

/-- Settles O9: the two ranges that fault by the fault of the address; in the range that does not, a write sets one
cell of a memory in canonical form. -/
theorem memWriteOutcomes : Obligations.MemWriteOutcomes := by
  intro s a v hwf
  refine ⟨fun hneg => memWrite_fault (addressFault_of_neg hneg),
    fun m hm habove => memWrite_fault (addressFault_of_above hm habove), fun h0 hmax => ?_⟩
  have hfault : addressFault s.params a = none := addressFault_none.2 ⟨h0, hmax⟩
  have hnat : addressFault s.params (a.toNat : Int) = none := by rwa [Int.toNat_of_nonneg h0]
  obtain ⟨hgrows, -⟩ := capMove_touch hnat
  exact ⟨_, memWrite_of_noFault hfault, Memory.get_set_same hwf _ v, fun _ hother => Memory.get_set_other v hother,
    lt_capAfter hnat, hgrows, capAfter_of_lt, ⟨rfl, rfl, rfl, rfl, rfl, rfl⟩, rfl, Memory.set_wf hwf _ v⟩

/-- Settles O10: a reference to an address that exists leaves a capacity above it and within `ADDR_MAX`. -/
theorem growthWithinBounds : Obligations.GrowthWithinBounds := by
  intro p cap a hle hmax
  have hfault : addressFault p (a : Int) = none :=
    addressFault_none.2 ⟨Int.natCast_nonneg a, fun m hm => by exact_mod_cast hmax m hm⟩
  have hgrow : capAfter p cap a = grow p cap a := if_pos hle
  have habove : a < grow p cap a := hgrow ▸ lt_capAfter hfault
  refine ⟨habove, Nat.lt_of_le_of_lt hle habove, fun m hm => ?_⟩
  simp [grow, hm]

/-- A word of opcode 3 is an IN, with the mode of its digit (30_encoding.md R84, R91). -/
theorem decode_of_opcode_inp {w : Nat} (h : opcodeOf w = 3) : decode (w : Int) = .ok (.inp (modeOf w 1)) := by
  simp [decode_natCast, instrOf, h]

/-- A word of opcode 99 is HALT (30_encoding.md R84). -/
theorem decode_of_opcode_halt {w : Nat} (h : opcodeOf w = 99) : decode (w : Int) = .ok .halt := by
  simp [decode_natCast, instrOf, h]

/-- Settles O15: IN with a good destination stores the front value there, and a bad one raises its fault. -/
theorem inStoresFrontValue : Obligations.InStoresFrontValue := by
  refine ⟨fun _ hop => decode_of_opcode_inp hop, fun s d v rest hwf hfront => ⟨fun hdest => ?_, fun _ => execIn_fault⟩⟩
  obtain ⟨c, ⟨hgrows, -⟩, -, hnext⟩ := execIn_value hdest hfront
  exact ⟨_, hnext, Memory.get_set_same hwf _ v, fun _ hother => Memory.get_set_other v hother, rfl, rfl, rfl, rfl, rfl,
    rfl, rfl, hgrows⟩

/-- Settles O16: IN with a good destination and no value suspends, and a bad destination raises its fault. -/
theorem inSuspendsOnEmptyQueue : Obligations.InSuspendsOnEmptyQueue := by
  refine fun s d hempty => ⟨fun hdest => ?_, fun _ => execIn_fault⟩
  obtain ⟨c, ⟨hgrows, -⟩, hnext⟩ := execIn_suspend hdest hempty
  exact ⟨_, hnext, rfl, fun _ => rfl, rfl, ⟨rfl, rfl, rfl, rfl, rfl⟩, hgrows⟩

/-- Settles O21. -/
theorem haltStops : Obligations.HaltStops :=
  ⟨fun _ hop => decode_of_opcode_halt hop, fun _ =>
    ⟨_, rfl, rfl, rfl, rfl, fun _ => rfl, rfl, rfl, rfl, rfl, rfl⟩⟩

/-- Settles O31. -/
theorem stepRunsDecodedInstruction : Obligations.StepRunsDecodedInstruction := fun _ _ hst hmax =>
  step_instr hst (fetch_noFault hmax)

/-- Settles O33: the fault is that of the fetch. -/
theorem fetchAboveMaxFaults : Obligations.FetchAboveMaxFaults := by
  intro s m hst hm habove
  rw [step_running hst]
  exact engineStep_of_fault (addressFault_of_above hm (by exact_mod_cast habove))

/-- Settles O34: the stored-to cell can be fetched, so where it is the next word the step decodes the stored value. -/
theorem storeSeenByNextFetch : Obligations.StoreSeenByNextFetch := by
  intro s t i a v hwf hrunning h hto hvalue
  have hdone := exec_completed h
  obtain ⟨hcell, hst, hok⟩ := hdone.cell_stored hwf hto hvalue
  obtain ⟨hparams, -⟩ := hdone.keeps
  rw [hrunning] at hst
  rw [← hparams] at hok
  have hword : a = t.pc → t.word = v := fun hpc => by
    subst hpc
    exact hcell
  refine ⟨hcell, fun hpc j hj => ?_, fun hpc hinvalid => ?_⟩
  · rw [← hword hpc] at hj
    exact step_instr hst (hpc ▸ hok) hj
  · rw [← hword hpc] at hinvalid
    exact ⟨_, step_invalidWord hst (hpc ▸ hok) hinvalid, rfl⟩

/-- Settles O36: no instruction changes the parameters, and the host has no move that does. -/
theorem parametersFixed : Obligations.ParametersFixed := by
  intro s t h
  by_cases hst : s.st = .running
  · exact (engineStep_keeps (step_running hst ▸ h)).1
  · rcases hostStep_next (step_host hst ▸ h) with ⟨-, rfl⟩ | ⟨_, _, -, hnew⟩ | ⟨_, _, -, -, rfl⟩ | ⟨_, -, rfl⟩
    · rfl
    · obtain ⟨-, -, rfl⟩ := construct_ok hnew
      rfl
    · rfl
    · rfl

/-- Settles O37. -/
theorem agentsTakeTurns : Obligations.AgentsTakeTurns := by
  refine ⟨fun s t hst h => (engineStep_keeps (step_running hst ▸ h)).2, fun s hst hhost => ?_⟩
  rw [step_host hst]
  exact hostStep_nil hhost

/-- Settles O35: a running engine ends in one of four ways, each with its cause; of the host's moves, a construction
leads to `Idle`, an invocation to what `entered` says, and the others keep `st`. -/
theorem stateTransitions : Obligations.StateTransitions := by
  intro s t h
  by_cases hst : s.st = .running
  · rcases engineStep_st hst (step_running hst ▸ h) with ht | ⟨ht, hempty, -⟩ | ⟨ht, hword⟩ | ⟨ht, hword⟩
    · simp [hst, ht]
    · simp [hst, ht, hempty]
    · simp [hst, ht, hword]
    · simp [hst, ht, hword]
  · rcases hostStep_next (step_host hst ▸ h) with ⟨-, rfl⟩ | ⟨program, rest, hhost, hnew⟩ | ⟨_, _, -, -, rfl⟩ |
      ⟨rest, hhost, rfl⟩
    · simp +contextual
    · obtain ⟨-, -, rfl⟩ := construct_ok hnew
      simp [hst, hhost]
    · simp +contextual
    · cases hs : s.st <;> simp_all [ExecState.entered]

end Sys2Proof


/-! Construction, invocation and the loop (48_run_protocol.md R200 to R213): what the host's moves come to, and one
induction for everything an invocation that returned has kept. -/

namespace Sys2Proof.Machine

/-- An engine with a status, that is one that has stopped, returns at once. -/
theorem runLoop_stopped {s : State} {x : Status} (n : Nat) (h : s.st.status = some x) :
    runLoop n s = .returned s s.out x := by
  unfold runLoop
  split <;> next hst => rw [hst] at h; cases h <;> rfl

/-- A running engine executes one instruction per unit of fuel. -/
theorem runLoop_succ {s t : State} (n : Nat) (hst : s.st = .running) (h : step s = .next t) :
    runLoop (n + 1) s = runLoop n t := by
  rw [step_running hst] at h
  simp [runLoop, hst, h]

/-- A loop that returned was of a stopped engine, or has made a step and returned from there. -/
theorem runLoop_returned {n : Nat} {s t : State} {out : List Int} {x : Status} (h : runLoop n s = .returned t out x) :
    (s.st.status = some x ∧ t = s ∧ out = s.out) ∨
    ∃ m u, n = m + 1 ∧ s.st = .running ∧ step s = .next u ∧ runLoop m u = .returned t out x := by
  unfold runLoop at h
  split at h
  · cases h
  · next hst => cases h; exact .inl ⟨congrArg _ hst, rfl, rfl⟩
  · next hst => cases h; exact .inl ⟨congrArg _ hst, rfl, rfl⟩
  · next hst => cases h; exact .inl ⟨congrArg _ hst, rfl, rfl⟩
  · next hst =>
    split at h
    · cases h
    · next m =>
      split at h
      · next u hu => exact .inr ⟨m, u, rfl, hst, (step_running hst).trans hu, h⟩
      · cases h
      · cases h

/-- The induction over a loop that returned: what holds of the engine it stopped in, and holds before a step where it
holds after it, holds of the engine it started with. -/
theorem runLoop_induct {P : State → Prop} {t : State} {out : List Int} {x : Status}
    (hstop : t.st.status = some x → out = t.out → P t)
    (hstep : ∀ {s u}, s.st = .running → engineStep s = .next u → P u → P s) {n : Nat} :
    ∀ {s}, runLoop n s = .returned t out x → P s := by
  induction n with
  | zero =>
    intro s h
    rcases runLoop_returned h with ⟨hst, rfl, hout⟩ | ⟨m, u, hm, -⟩
    · exact hstop hst hout
    · cases hm
  | succ n ih =>
    intro s h
    rcases runLoop_returned h with ⟨hst, rfl, hout⟩ | ⟨m, u, hm, hst, hu, hrest⟩
    · exact hstop hst hout
    · cases hm
      exact hstep hst ((step_running hst).symm.trans hu) (ih hrest)

theorem ExecState.status_eq_some {e : ExecState} {x : Status} :
    e.status = some x ↔ (x = .ok ∧ e = .halted) ∨ (x = .needsInput ∧ e = .suspendedOnInput) ∨
      (x = .invalidOpcode ∧ e = .failed) := by
  cases e <;> cases x <;> simp [ExecState.status]

/-- A loop that returned stopped with the status it returns, and returns the engine's output. -/
theorem runLoop_status {n : Nat} {s t : State} {out : List Int} {x : Status} (h : runLoop n s = .returned t out x) :
    t.st.status = some x ∧ out = t.out :=
  runLoop_induct (P := fun _ => t.st.status = some x ∧ out = t.out) (fun hst hout => ⟨hst, hout⟩)
    (fun _ _ hu => hu) h

/-- The queue a loop leaves is a rear part of the queue it was given (R208). -/
theorem runLoop_inq {n : Nat} {s t : State} {out : List Int} {x : Status} (h : runLoop n s = .returned t out x) :
    t.inq <:+ s.inq := by
  refine runLoop_induct (P := fun s => t.inq <:+ s.inq) (fun _ _ => List.suffix_refl _) (fun _ hstep hu => ?_) h
  rcases engineStep_inq hstep with hkept | ⟨v, hfront⟩
  · exact hkept ▸ hu
  · exact hfront ▸ hu.trans (List.suffix_cons v _)

/-- The output a loop leaves continues the output it started with (42_input_output.md R152). -/
theorem runLoop_out {n : Nat} {s t : State} {out : List Int} {x : Status} (h : runLoop n s = .returned t out x) :
    s.out <+: t.out := by
  refine runLoop_induct (P := fun s => s.out <+: t.out) (fun _ _ => List.prefix_refl _) (fun _ hstep hu => ?_) h
  rcases engineStep_out hstep with hkept | ⟨v, hlast⟩
  · exact hkept ▸ hu
  · exact ((List.prefix_append _ [v]).trans (hlast ▸ List.prefix_refl _)).trans hu

/-- An engine that the loop suspended has an empty queue (42_input_output.md R150). -/
theorem runLoop_suspended {n : Nat} {s t : State} {out : List Int} {x : Status} (h : runLoop n s = .returned t out x)
    (hs : s.st ≠ .suspendedOnInput) (ht : t.st = .suspendedOnInput) : t.inq = [] := by
  refine runLoop_induct (P := fun s => (s.st = .suspendedOnInput → s.inq = []) → t.inq = [])
    (fun _ _ hempty => hempty ht) (fun hst hstep hu _ => hu fun hsuspended => ?_) h fun hsuspended => absurd hsuspended hs
  rcases engineStep_st hst hstep with hu | ⟨-, -, hempty⟩ | ⟨hu, -⟩ | ⟨hu, -⟩
  · exact nomatch hu.symm.trans hsuspended
  · exact hempty
  · exact nomatch hu.symm.trans hsuspended
  · exact nomatch hu.symm.trans hsuspended

theorem runLoop_inv {n : Nat} {s t : State} {out : List Int} {x : Status} (h : runLoop n s = .returned t out x)
    (hs : Inv s) : Inv t :=
  runLoop_induct (P := fun s => Inv s → Inv t) (fun _ _ ht => ht) (fun _ hstep hu hs => hu (hs.engineStep hstep)) h hs

/-- An entered engine is not suspended: it runs or is terminal (R204, R209). -/
theorem ExecState.entered_ne_suspended (e : ExecState) : e.entered ≠ .suspendedOnInput := by
  cases e <;> simp [ExecState.entered]

/-- A call with a representable queue of an engine that is not running enters it. -/
theorem runCall_entered {q : List Int} {s : State} (n : Nat) (hst : s.st ≠ .running)
    (hfit : ∀ v ∈ q, fits s.params v = true) : runCall n q s = runLoop n (invoke (s.withInq q)) := by
  simp [runCall, hst, firstUnfit_none.2 hfit]

/-- Entry empties the output, and where it keeps `st` that is all it does (R209). -/
theorem invoke_of_entered {s : State} (h : s.st.entered = s.st) : invoke s = s.withOut [] := by
  unfold invoke
  rw [h]
  rfl

/-- A call of a terminal engine returns no output and the engine's status (R209). -/
theorem runCall_terminal {q : List Int} {s : State} {x : Status} (n : Nat) (hst : s.st = .halted ∨ s.st = .failed)
    (hstatus : s.st.status = some x) (hfit : ∀ v ∈ q, fits s.params v = true) :
    runCall n q s = .returned ((s.withInq q).withOut []) [] x := by
  have hnot : s.st ≠ .running := by rcases hst with h | h <;> simp [h]
  have hentered : s.st.entered = s.st := by rcases hst with h | h <;> simp [h, ExecState.entered]
  rw [runCall_entered n hnot hfit, invoke_of_entered (s := s.withInq q) hentered]
  exact runLoop_stopped n hstatus

/-- A call with an unrepresentable queue is refused (R218). -/
theorem runCall_unfit {q : List Int} {s : State} {v : Int} (n : Nat) (hst : s.st ≠ .running)
    (hfit : firstUnfit s.params q = some v) : runCall n q s = .refused (.unrepresentableInput v) := by
  simp [runCall, hst, hfit]

theorem runCall_running {s : State} (n : Nat) (q : List Int) (hst : s.st = .running) :
    runCall n q s = .refused .runWhileRunning := by
  simp [runCall, hst]

/-- Where a value is not representable, there is a first such value. -/
theorem firstUnfit_of_unfit {p : Params} {vs : List Int} {v : Int} (hv : v ∈ vs) (hunfit : fits p v = false) :
    ∃ u, firstUnfit p vs = some u := by
  cases hfirst : firstUnfit p vs with
  | some u => exact ⟨u, rfl⟩
  | none => exact nomatch hunfit.symm.trans (firstUnfit_none.1 hfirst v hv)

/-- A program of no more cells than `ADDR_MAX + 1` fits (log entry 11). -/
theorem withinMax_of_le {p : Params} {n : Nat} (h : ∀ m, p.addrMax = some m → n ≤ m + 1) : withinMax p n = true := by
  unfold withinMax
  split
  · rfl
  · next m hm => exact decide_eq_true (h m hm)

theorem peek_running {s : State} (a : Int) (hst : s.st = .running) : peek a s = .error .peekWhileRunning := by
  simp [peek, hst]

theorem peek_negative {s : State} {a : Int} (hst : s.st ≠ .running) (ha : a < 0) :
    peek a s = .error (.peekNegative a) := by
  simp [peek, hst, ha]

theorem peek_cell {s : State} (a : Nat) (hst : s.st ≠ .running) : peek (a : Int) s = .ok (s.cell a) := by
  have hnot : ¬ (a : Int) < 0 := by omega
  simp [peek, hst, hnot]

end Sys2Proof.Machine

namespace Sys2Proof
open Sys2Proof.Machine

/-- Settles O32: the step takes `InvalidOpcode`, and a loop that has made it finds a failed engine. -/
theorem invalidOpcodeTaken : Obligations.InvalidOpcodeTaken := by
  intro s hst hmax hinvalid
  have hstep := step_invalidWord hst (fetch_noFault hmax) hinvalid
  refine ⟨_, hstep, rfl, rfl, fun _ => rfl, ⟨rfl, rfl, rfl, rfl, rfl⟩, fun n => ?_⟩
  rw [runLoop_succ n hst hstep]
  exact runLoop_stopped n rfl

/-- Settles O41: the host's move constructs the fresh state of a program that is neither unrepresentable nor too
long. -/
theorem newBuildsResetState : Obligations.NewBuildsResetState := by
  intro s program rest hst hhost hfit hlen
  rw [step_host hst, hostStep_new hhost (firstUnfit_none.2 hfit) (withinMax_of_le hlen)]
  exact ⟨_, rfl, State.fresh_cell _ _ _ _, rfl, rfl, rfl, rfl, rfl, rfl, rfl, rfl, rfl⟩

/-- Settles O42. -/
theorem resetIsNewOfNothing : Obligations.ResetIsNewOfNothing := ⟨rfl, fun _ => rfl, rfl, rfl, rfl, rfl⟩

/-- Settles O43: each of the three is refused with the first unrepresentable value. -/
theorem unrepresentableRefused : Obligations.UnrepresentableRefused := by
  intro s vs v hv hunfit
  obtain ⟨u, hfirst⟩ := firstUnfit_of_unfit hv hunfit
  obtain ⟨hmem, hu⟩ := firstUnfit_some hfirst
  refine ⟨u, hmem, hu, fun hst rest hhost => ?_, fun hst rest hhost => ?_, fun hst n => runCall_unfit n hst hfirst⟩
  · rw [step_host hst]
    exact hostStep_new_unfit hhost hfirst
  · rw [step_host hst]
    exact hostStep_queue_unfit hhost hfirst

/-- Settles O45: entry leaves `st` of a terminal engine as it is, and the loop returns at once. -/
theorem terminalRunIsNoOp : Obligations.TerminalRunIsNoOp := fun _ n _ hfit =>
  ⟨fun hst => runCall_terminal n (.inl hst) (congrArg ExecState.status hst) hfit,
    fun hst => runCall_terminal n (.inr hst) (congrArg ExecState.status hst) hfit⟩

/-- Settles O46. -/
theorem runReturnsStatusOfStop : Obligations.RunReturnsStatusOfStop := by
  intro n q s t out x h
  obtain ⟨-, -, hloop⟩ := runCall_returned h
  obtain ⟨hstatus, hout⟩ := runLoop_status hloop
  exact ⟨hout, ExecState.status_eq_some.1 hstatus⟩

/-- Settles O54. -/
theorem queueMoveFillsQueue : Obligations.QueueMoveFillsQueue := by
  intro s vs rest hst hhost hfit
  rw [step_host hst, hostStep_queue hhost (firstUnfit_none.2 hfit)]
  exact ⟨_, rfl, rfl, fun _ => rfl, rfl, rfl, rfl, rfl, rfl, rfl, rfl⟩

/-- Settles O55: the passed queue is representable, and entry and every step of the loop keep the invariant. -/
theorem runKeepsInvariant : Obligations.RunKeepsInvariant := by
  intro n q s t out x hinv h
  obtain ⟨-, hfit, hloop⟩ := runCall_returned h
  exact runLoop_inv hloop (hinv.withInq hfit).invoke

/-- Settles O47: a step takes at most the front of the queue, and only an empty queue suspends. -/
theorem queueRemainder : Obligations.QueueRemainder := by
  intro n q s t out x h
  obtain ⟨-, -, hloop⟩ := runCall_returned h
  obtain ⟨popped, hq⟩ := runLoop_inq hloop
  refine ⟨⟨popped, hq.symm⟩, fun hx => ?_⟩
  obtain ⟨hstatus, -⟩ := runLoop_status hloop
  subst hx
  have hsuspended : t.st = .suspendedOnInput := by simpa using ExecState.status_eq_some.1 hstatus
  exact runLoop_suspended hloop (ExecState.entered_ne_suspended _) hsuspended

/-- Settles O48: each step only appends to the output. -/
theorem outputOnlyGrows : Obligations.OutputOnlyGrows := by
  intro n s t out x _ h
  obtain ⟨-, rfl⟩ := runLoop_status h
  obtain ⟨vs, hvs⟩ := runLoop_out h
  exact ⟨vs, hvs.symm⟩

/-- Settles O50, by induction on the fuel that was enough. -/
theorem moreFuelSameReturn : Obligations.MoreFuelSameReturn := by
  intro n
  induction n with
  | zero =>
    intro k s t out x h
    rcases runLoop_returned h with ⟨hst, rfl, rfl⟩ | ⟨m, u, hm, -⟩
    · exact runLoop_stopped _ hst
    · cases hm
  | succ n ih =>
    intro k s t out x h
    rcases runLoop_returned h with ⟨hst, rfl, rfl⟩ | ⟨m, u, hm, hst, hu, hrest⟩
    · exact runLoop_stopped _ hst
    · cases hm
      rw [Nat.add_right_comm, runLoop_succ _ hst hu]
      exact ih k u t out x hrest

/-- Settles O51. -/
theorem peekReadsCell : Obligations.PeekReadsCell := by
  refine ⟨fun s a hst => ⟨peek_cell a hst, fun hinv ha => ?_⟩, fun _ _ => peek_negative, fun _ a => peek_running a⟩
  rw [peek_cell a hst, hinv.cell_above_cap ha]

/-- Settles O49. -/
theorem resumeRepeatsIn : Obligations.ResumeRepeatsIn := by
  intro s d hwf hst hmax hword hdest
  have hentered : s.st.entered = .running := by simp [hst, ExecState.entered]
  have hfetch := fetch_noFault hmax
  refine ⟨fun n => ?_, fun v rest => ?_⟩
  · have hstep := step_instr (s := invoke (s.withInq [])) hentered hfetch hword
    obtain ⟨c, -, hnext⟩ := execIn_suspend (s := (invoke (s.withInq [])).touch s.pc) hdest rfl
    rw [runCall_entered (n + 1) (by simp [hst]) (by simp), runLoop_succ n hentered (hstep.trans hnext)]
    exact ⟨_, runLoop_stopped n rfl, rfl, fun _ => rfl, rfl, rfl, rfl⟩
  · have hstep := step_instr (s := invoke (s.withInq (v :: rest))) hentered hfetch hword
    obtain ⟨c, -, -, hnext⟩ := execIn_value (s := (invoke (s.withInq (v :: rest))).touch s.pc) hdest rfl
    exact ⟨_, hstep.trans hnext, Memory.get_set_same hwf _ v, fun _ hother => Memory.get_set_other v hother, rfl, rfl,
      hentered, rfl⟩

end Sys2Proof


/-! The feedback ring (48_run_protocol.md R214, R215). -/

namespace Sys2Proof.Machine

/-- The ring after engine `r.turn` returned as `t` with the output `out`. -/
def ringAfter (r : EngineRing) (t : State) (out : List Int) : EngineRing :=
  { engines := forward out ((r.turn + 1) % r.engines.length) (replaceEngine t r.turn r.engines)
    turn := (r.turn + 1) % r.engines.length }

/-- That ring is the one R214 asks for. -/
theorem ringAfter_forwarded {r : EngineRing} {e : State} (hturn : engineAt r.turn r.engines = some e) (t : State)
    (out : List Int) : Forwarded r t out (ringAfter r t out) := by
  refine ⟨by simp [ringAfter], rfl, fun k => ?_⟩
  have hengine := engineAt_forward out ((r.turn + 1) % r.engines.length) k (replaceEngine t r.turn r.engines)
  rw [engineAt_replaceEngine (engineAt_lt hturn)] at hengine
  exact hengine

section Turn
variable {fuel : Nat} {r : EngineRing} {e : State} (hturn : engineAt r.turn r.engines = some e)

include hturn

theorem ringTurn_invalidOpcode {t : State} {out : List Int}
    (hcall : runCall fuel e.inq e = .returned t out .invalidOpcode) : ringTurn fuel r = .aborted r.turn := by
  simp [ringTurn, hturn, hcall]

theorem ringTurn_needsInput {t : State} {out : List Int}
    (hcall : runCall fuel e.inq e = .returned t out .needsInput) : ringTurn fuel r = .next (ringAfter r t out) := by
  simp [ringTurn, hturn, hcall, ringAfter]

theorem ringTurn_ok {t : State} {out : List Int} (hcall : runCall fuel e.inq e = .returned t out .ok) :
    ringTurn fuel r = if r.turn + 1 = r.engines.length then .done out.getLast? (ringAfter r t out)
      else .next (ringAfter r t out) := by
  simp [ringTurn, hturn, hcall, ringAfter]

theorem ringTurn_fault {f : Fault} (hcall : runCall fuel e.inq e = .fault f) : ringTurn fuel r = .fault f := by
  simp [ringTurn, hturn, hcall]

theorem ringTurn_refused {x : Refusal} (hcall : runCall fuel e.inq e = .refused x) :
    ringTurn fuel r = .refused x := by
  simp [ringTurn, hturn, hcall]

theorem ringTurn_unfinished {t : State} (hcall : runCall fuel e.inq e = .unfinished t) :
    ringTurn fuel r = .unfinished := by
  simp [ringTurn, hturn, hcall]

end Turn

end Sys2Proof.Machine

namespace Sys2Proof
open Sys2Proof.Machine

/-- Settles O52: one equation per outcome of the invocation; where the turn goes on, the ring is `ringAfter`. -/
theorem ringForwardsOrAborts : Obligations.RingForwardsOrAborts := by
  intro fuel r e hturn
  refine ⟨fun _ _ => ringTurn_invalidOpcode hturn,
    fun t out hcall => ⟨_, ringTurn_needsInput hturn hcall, ringAfter_forwarded hturn t out⟩,
    fun t out hcall hnotLast => ⟨_, ?_, ringAfter_forwarded hturn t out⟩,
    fun t out hcall hlast => ⟨_, ?_, ringAfter_forwarded hturn t out⟩,
    fun _ => ringTurn_fault hturn, fun _ => ringTurn_refused hturn, fun _ => ringTurn_unfinished hturn⟩
  · rw [ringTurn_ok hturn hcall, if_neg hnotLast]
  · rw [ringTurn_ok hturn hcall, if_pos hlast]

end Sys2Proof

/-! Words on the data ports (48_run_protocol.md R220, 20_memory.md R59): two's complement, most significant bit
first. -/

namespace Sys2Proof.Machine

/-- The bits of a value in range stand for it: above the low `n` bits such a value is 0 or -1, and its sign bit says
which. -/
theorem signedOf_bitsOf {n : Nat} {v : Int} (hlow : -2 ^ n ≤ v) (hhigh : v < 2 ^ n) :
    signedOf (bitsOf (n + 1) v) = v := by
  simp only [bitsOf, signedOf, unsignedOf_bitsOf, bitsOf_length]
  have hsplit := Int.mul_ediv_add_emod v (2 ^ n)
  by_cases hneg : v < 0
  · have hquot : v / 2 ^ n = -1 := by
      refine (Int.ediv_eq_iff_of_pos (by positivity)).2 ?_
      constructor <;> omega
    rw [hquot] at hsplit ⊢
    simp
    omega
  · have hquot : v / 2 ^ n = 0 := Int.ediv_eq_zero_of_lt (by omega) hhigh
    rw [hquot] at hsplit ⊢
    simp
    omega

/-- Bits of one length that stand for one unsigned number are the same bits. -/
theorem unsignedOf_injective : ∀ {word word' : List Bool}, word.length = word'.length →
    unsignedOf word = unsignedOf word' → word = word'
  | [], [], _, _ => rfl
  | b :: rest, b' :: rest', hlen, hval => by
    have hlen' : rest.length = rest'.length := Nat.succ.inj hlen
    have hlt := unsignedOf_lt rest
    have hlt' := unsignedOf_lt rest'
    simp only [unsignedOf, hlen'] at hval hlt
    have hb : b = b' := by cases b <;> cases b' <;> simp at hval <;> first | rfl | omega
    subst hb
    rw [unsignedOf_injective hlen' (Nat.add_left_cancel hval)]

/-- The signed number of a word is its unsigned number, less the weight of one more bit where the first is set. -/
theorem signedOf_cons (b : Bool) (rest : List Bool) :
    signedOf (b :: rest) = (unsignedOf (b :: rest) : Int) - if b then 2 ^ (rest.length + 1) else 0 := by
  cases b <;> simp [signedOf, unsignedOf, pow_succ]
  ring

/-- A word is the bits of the number it stands for. -/
theorem bitsOf_signedOf (b : Bool) (rest : List Bool) :
    bitsOf (rest.length + 1) (signedOf (b :: rest)) = b :: rest := by
  refine unsignedOf_injective (bitsOf_length _ _) ?_
  have hlt : (unsignedOf (b :: rest) : Int) < 2 ^ (rest.length + 1) := by exact_mod_cast unsignedOf_lt (b :: rest)
  have hmod : (unsignedOf (bitsOf (rest.length + 1) (signedOf (b :: rest))) : Int) = unsignedOf (b :: rest) := by
    rw [unsignedOf_bitsOf, signedOf_cons]
    cases b
    · simpa using Int.emod_eq_of_lt (Int.natCast_nonneg _) hlt
    · simpa using Int.emod_eq_of_lt (Int.natCast_nonneg _) hlt
  exact_mod_cast hmod

/-- The first bit is the sign. -/
theorem signedOf_neg (b : Bool) (rest : List Bool) : signedOf (b :: rest) < 0 ↔ b = true := by
  have hlt : (unsignedOf rest : Int) < 2 ^ rest.length := by exact_mod_cast unsignedOf_lt rest
  cases b <;> simp [signedOf]
  omega

end Sys2Proof.Machine

namespace Sys2Proof
open Sys2Proof.Machine

/-- Settles O56: reading back is `signedOf_bitsOf` in one direction and `bitsOf_signedOf` in the other. -/
theorem portWordsRoundTrip : Obligations.PortWordsRoundTrip := by
  refine ⟨fun p v hwf hfit => ?_, fun p n b rest hbits hlen => ?_⟩
  · cases hbits : p.cellBits with
    | none => simp [portValue, portWord, hbits]
    | some n =>
      have hn : 2 ≤ n := by simpa [Params.wf, hbits] using hwf
      obtain ⟨m, rfl⟩ : ∃ m, n = m + 1 := ⟨n - 1, by omega⟩
      obtain ⟨hlow, hhigh⟩ : -2 ^ m ≤ v ∧ v ≤ 2 ^ m - 1 := by simpa [fits, hbits, cellMin, cellMax] using hfit
      simp [portValue, portWord, hbits, signedOf_bitsOf hlow (by omega)]
  · have hlen' : rest.length + 1 = n := hlen
    have hword : bitsOf n (signedOf (b :: rest)) = b :: rest := hlen' ▸ bitsOf_signedOf b rest
    refine ⟨signedOf (b :: rest), by simp [portValue, hbits, hlen'], signedOf_fits hbits hlen,
      by simp [portWord, hbits, hword], (signedOf_neg b rest).symm, fun k hk => ?_⟩
    have hbit := bitsOf_getElem? (signedOf (b :: rest)) hk
    rw [hword] at hbit
    simp [hbit]

end Sys2Proof


/-! A sampling of the ports (48_run_protocol.md R220): the outputs it shows, and the engine behind them. -/

namespace Sys2Proof.Machine

/-- What the input port shows is representable (R218). -/
theorem portQueue_fits {i : PortIn} {p : Params} {queue : List Int} (hp : p.wf = true)
    (h : portQueue i p = .ok queue) : ∀ v ∈ queue, fits p v = true := by
  unfold portQueue at h
  split at h
  · split at h
    · next v hv => cases h; simpa using portValue_fits hp hv
    · cases h
  · cases h; simp

/-- Every sampling shows the outputs of the engine it leaves. -/
theorem portStep_out {i : PortIn} {p q : PortState} {o : PortOut} (h : portStep i p = .next (q, o)) :
    ∃ before, o = portOut before q.engine q.started i.peekAddr := by
  rcases portStep_cases h with ⟨-, queue, t, -, -, rfl, rfl⟩ | ⟨-, rfl, -⟩
  · exact ⟨_, rfl⟩
  · exact ⟨_, rfl⟩

section Out
variable (before after : State) (started : Bool) (a : Nat)

theorem portOut_busy : (portOut before after started a).busy = true ↔ after.st = .running := by simp [portOut]

/-- While busy there is no status. -/
theorem portOut_status_busy (h : (portOut before after started a).busy = true) :
    (portOut before after started a).status = none := by
  have hst := (portOut_busy before after started a).1 h
  simp [portOut, hst]

/-- The status is the code of one of the three statuses (10_state.md R28). -/
theorem portOut_status_ne_three : (portOut before after started a).status ≠ some 3#2 := by
  simp only [portOut]
  split
  · simp
  · cases hstatus : after.st.status with
    | none => simp
    | some x => cases x <;> decide

theorem portOut_inPop :
    (portOut before after started a).inPop = true ↔ after.inq.length < before.inq.length := by simp [portOut]

theorem portOut_outValid :
    (portOut before after started a).outValid = true ↔ before.out.length < after.out.length := by simp [portOut]

theorem portOut_outData {v : Int} (h : after.out = before.out ++ [v]) :
    (portOut before after started a).outData = some (portWord after.params v) := by simp [portOut, h]

theorem portOut_peekData (h : (portOut before after started a).busy = false) :
    (portOut before after started a).peekData = some (portWord after.params (after.cell a)) := by
  have hst : after.st ≠ .running := by simpa [portOut] using h
  simp [portOut, hst]

end Out

/-- A busy engine executes, whatever else is offered (R220; log entry 19). -/
theorem portStep_running (i : PortIn) {p : PortState} (hst : p.engine.st = .running) :
    portStep i p = portExecute i p := if_pos hst

/-- A sampling of a busy engine whose step answers a next state (log entry 19). -/
theorem portStep_busy {i : PortIn} {p : PortState} {queue : List Int} {t : State} (hst : p.engine.st = .running)
    (hqueue : portQueue i p.engine.params = .ok queue) (hstep : step (p.engine.withInq queue) = .next t) :
    portStep i p =
      .next ({ p with engine := t }, portOut (p.engine.withInq queue) t p.started i.peekAddr) := by
  have hengine := (step_running (s := p.engine.withInq queue) hst).symm.trans hstep
  rw [portStep_running i hst]
  simp [portExecute, hqueue, hengine]

/-- While the engine is busy, `start` is not looked at (R220). -/
theorem portStep_start_busy {i : PortIn} (b : Bool) {p : PortState} (hst : p.engine.st = .running) :
    portStep { i with start := b } p = portStep i p :=
  (portStep_running _ hst).trans (portStep_running i hst).symm

theorem ringTurn_running {n : Nat} {r : EngineRing} {e : State} (hturn : engineAt r.turn r.engines = some e)
    (hst : e.st = .running) : ringTurn n r = .refused .runWhileRunning :=
  ringTurn_refused hturn (runCall_running n e.inq hst)

end Sys2Proof.Machine

namespace Sys2Proof
open Sys2Proof.Machine

/-- Settles O53. -/
theorem portsFollowEngine : Obligations.PortsFollowEngine := by
  intro i p q o h
  obtain ⟨before, rfl⟩ := portStep_out h
  exact ⟨portOut_busy _ _ _ _, portOut_status_ne_three _ _ _ _, portOut_status_busy _ _ _ _⟩

/-- Settles O57: what the ports give the engine is representable, and an instruction, a construction and an invocation
keep the invariant. -/
theorem portsKeepInvariant : Obligations.PortsKeepInvariant := by
  intro i p q o hinv h
  rcases portStep_cases h with ⟨-, queue, t, hqueue, hstep, rfl, -⟩ | ⟨-, -, hkept | hinvoked | ⟨program, hnew⟩⟩
  · exact (hinv.withInq (portQueue_fits hinv.paramsWf hqueue)).engineStep hstep
  · exact hkept ▸ hinv
  · exact hinvoked ▸ hinv.invoke
  · exact hinv.construct hnew

/-- Settles O58: the pulses tell the lengths of the two sequences before and after, and a step takes at most the one
value shown and appends at most one. -/
theorem portsRunEngine : Obligations.PortsRunEngine := by
  intro i p queue t hst hshown hstep
  have hqueue : portQueue i p.engine.params = .ok queue := by
    rcases hshown with ⟨hvalid, rfl⟩ | ⟨v, hvalid, hv, rfl⟩
    · simp [portQueue, hvalid]
    · simp [portQueue, hvalid, hv]
  have hengine := (step_running (s := p.engine.withInq queue) hst).symm.trans hstep
  obtain ⟨hparams, -⟩ := engineStep_keeps hengine
  rw [State.withInq_params] at hparams
  refine ⟨_, portStep_busy hst hqueue hstep, ?_, ?_, fun v hv => ?_, fun hidle => ?_⟩
  · rw [portOut_inPop, State.withInq_inq]
    rcases engineStep_inq hengine with hkept | ⟨v, hfront⟩
    · rw [State.withInq_inq] at hkept
      simp [hkept]
    · rw [State.withInq_inq] at hfront
      rcases hshown with ⟨-, rfl⟩ | ⟨u, -, -, rfl⟩
      · exact nomatch hfront
      · obtain ⟨-, hnil⟩ := List.cons.inj hfront
        simp [← hnil]
  · rw [portOut_outValid, State.withInq_out]
    rcases engineStep_out hengine with hkept | ⟨v, hlast⟩
    · simp [hkept]
    · simp [hlast]
  · rw [← hparams]
    exact portOut_outData _ _ _ _ hv
  · rw [← hparams]
    exact portOut_peekData _ _ _ _ hidle

/-- Settles O59. -/
theorem runWhileRunningRefused : Obligations.RunWhileRunningRefused :=
  ⟨fun n q _ hst => runCall_running n q hst, fun _ _ _ hturn hst => ringTurn_running hturn hst,
    fun _ b _ hst => portStep_start_busy b hst⟩

end Sys2Proof
